-- ==== Sys2Proof/Word.lean ====
section
/-! DEFINITION. The two widths of the block: a wire byte and a 32-bit value (00_scope.md R8). -/

namespace Sys2Proof

/-- A wire byte, a command byte, a pin or slot operand: 8 bits (R8). -/
abbrev Byte := BitVec 8

/-- A message id, a numeric value, a pin state, a count: 32 bits (R8). -/
abbrev Word := BitVec 32

/-- `u32(i)` of R9: `i mod 2^32` as a 32-bit pattern. -/
abbrev u32 (n : Nat) : Word := BitVec.ofNat 32 n

end Sys2Proof
end

