-- ==== Sys2Proof/Config.lean ====
section
/-! DEFINITION. The parameters of the block (00_scope.md R7) and the two values the spec leaves free: the scheduler's
choice (R15, R207, R270) and what a capacity too wide for its register reads as (10_state.md R37). -/

namespace Sys2Proof

/-- One choice of the scheduler (R15): the host's turn, or the timebase's turn for one debounce entry. -/
inductive Turn where
  | host
  | expire (e : Byte)
deriving DecidableEq, Repr, Inhabited

/-- The parameters of R7, fixed for the life of one instance. `stdIds` is `IsStdId` together with
`StdPayloadLen`: the standard id bytes in rising order, each with its payload length. `rxCap` is `none` for an
unbounded buffer. -/
structure Config where
  nPins : Nat
  nDb : Nat
  nEnc : Nat
  rxCap : Option Nat
  stdIds : List (Byte × Nat)
  /-- TICK_PERIOD in milliseconds, any positive rational (DESIGN CHOICE, log 15); no rule of the block depends on it
  (R184). -/
  tickPeriodMs : Rat
deriving DecidableEq, Repr

/-- FREE VALUE (R207, R270; log 5): the scheduler's `n`-th choice that no list of choices fixes. It has no body, so
nothing can be proved about which order it takes. -/
opaque Config.freeTurn : Nat → Turn

/-- FREE VALUE (10_state.md R37, DESIGN CHOICE, log 19): what register 0x08 reads for a finite `RX_CAP` of 2^32 or more,
which R7 allows and a 32-bit register cannot hold; the spec states no value there. It has no body. -/
opaque Config.wideRxCap : Nat → Word

end Sys2Proof
end

