-- ==== Sys2Proof/Syntax.lean ====
section
/-! DEFINITION. The operations of the block: one constructor per row of spec/opcode_table.json (30_encoding.md R100),
with the operand fields of R102. -/

namespace Sys2Proof

/-- An operation with its operands. `dbExpire` is the timebase's own step label (R206), never a command. -/
inductive Instr where
  | frame (id : Word) (payload : List Byte)
  | parse (buf : List Byte)
  | toData (v : Word)
  | toValue (payload : List Byte)
  | strToData (str : List Byte)
  | toString (payload : List Byte)
  | rxPush (b : Byte)
  | rxStep
  | pinChange (p : Byte) (v : Word)
  | tick
  | dbCreate (e : Byte) (pin : Byte) (delay : Word)
  | dbRemove (e : Byte)
  | dbExpire (e : Byte)
  | encCreate (e : Byte) (pin1 : Byte) (pin2 : Byte)
  | encRemove (e : Byte)
  | encRead (e : Byte)
  | readReg (r : Byte)
  | reset
deriving DecidableEq, Repr

end Sys2Proof
end

