-- ==== Sys2Proof/WellFormed.lean ====
section
/-! DEFINITION. What an encodable operation and a legal choice of parameters are. A pin, slot or register number
outside its range is well formed: the operation itself answers OUT_OF_RANGE (R261). -/

namespace Sys2Proof

/-- A serialised list has a 16-bit length (30_encoding.md R101). -/
def listFits (l : List Byte) : Bool := decide (l.length ≤ 65535)

/-- The operation has a serialised form: its list operand fits (R101). -/
def Instr.wf : Instr → Bool
  | .frame _ payload => listFits payload
  | .parse buf => listFits buf
  | .toValue payload => listFits payload
  | .strToData str => listFits str
  | .toString payload => listFits payload
  | .toData _ => true
  | .rxPush _ => true
  | .rxStep => true
  | .pinChange _ _ => true
  | .tick => true
  | .dbCreate _ _ _ => true
  | .dbRemove _ => true
  | .dbExpire _ => true
  | .encCreate _ _ _ => true
  | .encRemove _ => true
  | .encRead _ => true
  | .readReg _ => true
  | .reset => true

/-- The operation may arrive on the command port: every one but the timebase's step label (R103, R206). -/
def Instr.onPort : Instr → Bool
  | .dbExpire _ => false
  | .frame _ _ | .parse _ | .toData _ | .toValue _ | .strToData _ | .toString _ | .rxPush _ | .rxStep
  | .pinChange _ _ | .tick | .dbCreate _ _ _ | .dbRemove _ | .encCreate _ _ _ | .encRemove _ | .encRead _
  | .readReg _ | .reset => true

/-- A standard id byte: 0x80..0xFF, neither marker (R85); its payload length is 0, 1 or 2 (R87). -/
def stdEntryWf (x : Byte × Nat) : Bool :=
  decide (0x80 ≤ x.1.toNat) && x.1 != 0xF0#8 && x.1 != 0xF7#8 && decide (x.2 ≤ 2)

/-- The id bytes stand in strictly rising order, so each byte has one payload length. -/
def stdIdsRising : List (Byte × Nat) → Bool
  | x :: y :: l => decide (x.1.toNat < y.1.toNat) && stdIdsRising (y :: l)
  | _ => true

/-- `RX_CAP` is unbounded or at least 4 (R7). -/
def rxCapWf : Option Nat → Bool
  | none => true
  | some c => decide (4 ≤ c)

/-- The ranges of R7. -/
def Config.wf (c : Config) : Bool :=
  decide (1 ≤ c.nPins ∧ c.nPins ≤ 128) && decide (1 ≤ c.nDb ∧ c.nDb ≤ 256) &&
    decide (1 ≤ c.nEnc ∧ c.nEnc ≤ 256) && rxCapWf c.rxCap &&
    c.stdIds.all stdEntryWf && stdIdsRising c.stdIds && decide (0 < c.tickPeriodMs)

end Sys2Proof
end

