-- ==== Sys2Proof/Machine/Params.lean ====
section
/-! DEFINITION. Reading the parameters: `IsStdId`, `StdPayloadLen` and their defaults (30_encoding.md R86, R87), `RX_CAP` as its register reads (10_state.md R37), and
the instance State.reset is built with. -/

namespace Sys2Proof

/-- The payload length of standard id `b`, if `b` is in `IsStdId`. -/
def lookupStd (b : Byte) : List (Byte × Nat) → Option Nat
  | [] => none
  | x :: l => if x.1 = b then some x.2 else lookupStd b l

/-- `b in IsStdId` (R86). -/
def Config.isStdId (c : Config) (b : Byte) : Bool := (lookupStd b c.stdIds).isSome

/-- `StdPayloadLen(b)` for a `b` in `IsStdId` (R87); no rule asks it of another byte, where it is the default 2. -/
def Config.stdPayloadLen (c : Config) (b : Byte) : Nat := (lookupStd b c.stdIds).getD 2

/-- What register 0x08 reads (10_state.md R37): 0 for `none`, and a finite `RX_CAP` that 32 bits hold. DESIGN CHOICE
(log 19): for a wider one R37 states no value, and the reading is the free value Config.wideRxCap. -/
def rxCapReading : Option Nat → Word
  | none => 0#32
  | some n => if n < 2 ^ 32 then u32 n else Config.wideRxCap n

/-- Sixteen consecutive id bytes from `base`, each with the default payload length 2. -/
def stdRange (base : Nat) : List (Byte × Nat) :=
  (List.range 16).map fun i => (BitVec.ofNat 8 (base + i), 2)

/-- `FIRMATA_STD_SET` with the default payload length 2 (R86, R87). PRESUMED (log 2): the spec marks the set as
general knowledge. -/
def firmataStdSet : List (Byte × Nat) :=
  stdRange 0x90 ++ stdRange 0xC0 ++ stdRange 0xD0 ++ stdRange 0xE0 ++
    [(0xF4, 2), (0xF5, 2), (0xF9, 2), (0xFF, 2)]

/-- The instance of 95_test_vectors.md: 8 pins, 4 debounce and 4 encoder slots, an unbounded buffer, ticks of 1 ms.
DESIGN CHOICE (log 1): R7 leaves the parameters open. -/
def defaultConfig : Config :=
  { nPins := 8, nDb := 4, nEnc := 4, rxCap := none, stdIds := firmataStdSet, tickPeriodMs := 1 }

end Sys2Proof
end

