-- ==== Sys2Proof/Machine/State.lean ====
section
/-! DEFINITION. The state of the block (10_state.md R22 to R35), what it can answer, and its power-on state
(70_reset_and_hazards.md R291, R292). -/

namespace Sys2Proof.Machine

/-- The status codes of 30_encoding.md R104. -/
inductive Status where
  | ok
  | needMore
  | malformed
  | invalidId
  | outOfRange
  | entryBusy
  | entryFree
  | samePin
  | pinUnknown
  | overflow
  | illegalOp
deriving DecidableEq, Repr

/-- A verdict of `Parse` (40_codec.md R124). -/
inductive Verdict where
  | msg (skip len : Nat) (id : Word) (payload : List Byte)
  | needMore (skip : Nat)
  | malformed (skip len : Nat)
deriving DecidableEq, Repr

/-- The shape of a message identifier (30_encoding.md R83): the standard byte, the sysex type, the 14-bit extended
id, or none of them. -/
inductive Shape where
  | std (b : Byte)
  | sysex (t : Byte)
  | ext (x : BitVec 14)
  | invalid
deriving DecidableEq, Repr

/-- `result.data` by operation (30_encoding.md R105). Byte counts are naturals (log 14). -/
inductive ResultData where
  | empty
  | bytes (bytes : List Byte)
  | verdict (v : Verdict)
  | payload (payload : List Byte)
  | number (v : Word)
  | str (str : List Byte)
  | flushed (n : Nat)
  | dropped (n : Nat)
  | message (dropped : Nat) (id : Word) (payload : List Byte)
  | count (count : Word)
  | value (value : Word)
deriving DecidableEq, Repr

/-- The output register of the operation just performed (R22). -/
structure Result where
  status : Status
  data : ResultData
deriving DecidableEq, Repr

/-- The events of 30_encoding.md R106. -/
inductive Event where
  | msg (id : Word) (payload : List Byte)
  | dropped (n : Word)
  | dbPublish (e : Byte) (value : Word)
  | encCount (e : Byte) (count : Word)
  | encCw (e : Byte)
  | encCcw (e : Byte)
deriving DecidableEq, Repr

/-- The phase of a pin1 edge (44_encoder.md R235): clockwise (+1) or counter-clockwise (-1). -/
inductive Phase where
  | cw
  | ccw
deriving DecidableEq, Repr

/-- A debounce entry (10_state.md R29). -/
structure DbEntry where
  valid : Bool
  pin : Nat
  delay : Word
  last : Option Word
  armed : Bool
  deadline : Nat
  seq : Nat
deriving DecidableEq, Repr

/-- The reset value of a debounce entry (R29). -/
def DbEntry.reset : DbEntry :=
  { valid := false, pin := 0, delay := 0, last := none, armed := false, deadline := 0, seq := 0 }

/-- An encoder entry (10_state.md R31). `step` is the sub-step accumulator: none is 0, some cw is +1, some ccw is
-1. `count` is read as two's complement. -/
structure EncEntry where
  valid : Bool
  pin1 : Nat
  pin2 : Nat
  step : Option Phase
  count : Word
  seq : Nat
deriving DecidableEq, Repr

/-- The reset value of an encoder entry (R31). -/
def EncEntry.reset : EncEntry :=
  { valid := false, pin1 := 0, pin2 := 0, step := none, count := 0, seq := 0 }

/-- The state. The last three fields and `cfg` are the model's own: the parameters (no operation writes them, R34;
log 1), the command port's pending bytes (R36; log 3), the scheduler's coming choices, and how many free choices were
used (R15; log 5). -/
structure State where
  cfg : Config
  result : Result
  rxbuf : List Byte
  droppedCount : Word
  overflowCount : Word
  pinState : List (Option Word)
  now : Nat
  nextSeq : Nat
  db : List DbEntry
  enc : List EncEntry
  events : List Event
  port : List Byte
  turns : List Turn
  turnCount : Nat
deriving DecidableEq, Repr

/-- Why the machine stops. 93_implementation_defined.md gives the block no fault; this one is the model's. -/
inductive Fault where
  /-- Raised by DB_EXPIRE and by PIN_CHANGE's encoder reaction when the pin they read has no known state. Only a state
  that breaks R30 or R32 gets here, so no run from reset does. Safe: the model stops (log 8). -/
  | pinStateUnknown (pin : Nat)
deriving DecidableEq, Repr

/-- Why an operation has no step. -/
inductive Refusal where
  /-- Raised by the dispatcher for an operation without a meaning; none is left. Safe. -/
  | notModelled (mnemonic : String)
  /-- Raised by DB_EXPIRE where R206 does not enable it: such a step does not exist. `step` never asks for one.
  Safe (log 7). -/
  | expiryNotEnabled (e : Byte)
deriving DecidableEq, Repr

/-- The three outcomes over this state. -/
abbrev Out := Host.Outcome State Fault Refusal

/-- The power-on state of the instance with parameters `c` (R291, R292). -/
def State.powerOn (c : Config) : State :=
  { cfg := c
    result := { status := .ok, data := .empty }
    rxbuf := []
    droppedCount := 0
    overflowCount := 0
    pinState := List.replicate c.nPins none
    now := 0
    nextSeq := 0
    db := List.replicate c.nDb DbEntry.reset
    enc := List.replicate c.nEnc EncEntry.reset
    events := []
    port := []
    turns := []
    turnCount := 0 }

/-- Power-on of the test vectors' instance (log 1). -/
def State.reset : State := State.powerOn defaultConfig

end Sys2Proof.Machine
end

