-- ==== Sys2Proof/Machine/Wire.lean ====
section
/-! DEFINITION. Wire formats and the codec's pure functions: byte classes (30_encoding.md R80), identifier shapes
(R83), framing (40_codec.md R120), parsing (R124 to R129), 7-bit group integers (R130, R133) and strings
(R136, R138). -/

namespace Sys2Proof.Machine

/-! ### Byte classes (R80) -/

/-- A data byte: 0x00..0x7F. -/
def isData (b : Byte) : Bool := decide (b.toNat < 0x80)

/-- Sysex start. -/
def sysexStart : Byte := 0xF0#8

/-- Sysex end. -/
def sysexEnd : Byte := 0xF7#8

/-- `IsNoise(b)` of R125: a status byte that is neither a marker nor a standard id. -/
def isNoise (c : Config) (b : Byte) : Bool :=
  !isData b && b != sysexStart && b != sysexEnd && !c.isStdId b

/-! ### Message identifiers (R83) -/

/-- `Shape(id)`: the conditions of R83, in its order. -/
def shapeOf (id : Word) : Shape :=
  let low := id.extractLsb' 0 8
  if id.extractLsb' 8 24 = 0x000000#24 ∧ id.getLsbD 7 = true ∧ low ≠ sysexStart ∧ low ≠ sysexEnd then .std low
  else if id.extractLsb' 8 24 = 0x0000F0#24 ∧ id.getLsbD 7 = false ∧ id.extractLsb' 0 7 ≠ 0#7 then .sysex low
  else if id.extractLsb' 16 16 = 0x00F0#16 ∧ id.extractLsb' 14 2 = 0#2 then .ext (id.extractLsb' 0 14)
  else .invalid

/-- The id of a standard message: its byte (R83). -/
def stdId (b : Byte) : Word := b.setWidth 32

/-- The id of sysex type `t`: `0x0000F000 | t` (R83, R128). -/
def sysexId (t : Byte) : Word := 0x0000F000#32 ||| t.setWidth 32

/-- The extended id in the two bytes `lo`, `hi`: `0x00F00000 | lo | (hi << 7)` (R65, R128). -/
def extId (lo hi : Byte) : Word := 0x00F00000#32 ||| (lo.setWidth 32 ||| (hi.setWidth 32 <<< 7))

/-! ### FRAME (R120) -/

/-- The bytes of one message, or none for an id of shape INVALID. -/
def frameBytes (id : Word) (payload : List Byte) : Option (List Byte) :=
  match shapeOf id with
  | .std b => some (b :: payload)
  | .sysex t => some ([sysexStart, t] ++ payload ++ [sysexEnd])
  | .ext x =>
    some ([sysexStart, 0x00#8, (x.extractLsb' 0 7).setWidth 8, (x.extractLsb' 7 7).setWidth 8] ++ payload ++ [sysexEnd])
  | .invalid => none

/-! ### PARSE (R124 to R129) -/

/-- `NoiseSkip(buf)` (R125): how many leading bytes are noise. -/
def noiseSkip (c : Config) (buf : List Byte) : Nat := (buf.takeWhile (isNoise c)).length

/-- `ShortBuffer(b, a)` (R126). -/
def shortBuffer (c : Config) (b : Byte) (a : Nat) : Bool :=
  decide (a < 3) && !(c.isStdId b && decide (1 + c.stdPayloadLen b ≤ a))

/-- `ParseStd` (R127) on lead byte `b` and the bytes after it: the first status byte among the payload's `k` bytes
cuts the frame. -/
def parseStd (c : Config) (s : Nat) (b : Byte) (body : List Byte) : Verdict :=
  let k := c.stdPayloadLen b
  let m := ((body.take k).takeWhile isData).length
  if m < k then .malformed s (m + 1) else .msg s (1 + k) (stdId b) (body.take k)

/-- A sysex frame that 0xF7 terminates (R128): `len` bytes in all, `data` between the markers. -/
def sysexVerdict (s len : Nat) (data : List Byte) : Verdict :=
  match data with
  | [] => .malformed s len
  | t :: rest =>
    if t ≠ 0x00#8 then .msg s len (sysexId t) rest
    else
      match rest with
      | lo :: hi :: payload => .msg s len (extId lo hi) payload
      | _ => .malformed s len

/-- `ParseSysex` (R128) on the bytes after the lead byte 0xF0. -/
def parseSysex (s : Nat) (body : List Byte) : Verdict :=
  if body.head? = some 0x00#8 ∧ body.length < 3 then .needMore s
  else
    let data := body.takeWhile isData
    match body.drop data.length with
    | [] => .needMore s
    | e :: _ => if e ≠ sysexEnd then .malformed s (data.length + 1) else sysexVerdict s (data.length + 2) data

/-- `Parse(buf)` (R124): the verdict on the first message of a buffer. -/
def parse (c : Config) (buf : List Byte) : Verdict :=
  let s := noiseSkip c buf
  match buf.drop s with
  | [] => .needMore s
  | b :: body =>
    if shortBuffer c b (body.length + 1) then .needMore s
    else if c.isStdId b then parseStd c s b body
    else if b = sysexStart then parseSysex s body
    else .malformed s 1

/-- The noise bytes a verdict counts. -/
def Verdict.skip : Verdict → Nat
  | .msg s _ _ _ => s
  | .needMore s => s
  | .malformed s _ => s

/-- The frame bytes a verdict counts: 0 for NEED_MORE (R141). -/
def Verdict.len : Verdict → Nat
  | .msg _ n _ _ => n
  | .needMore _ => 0
  | .malformed _ n => n

/-! ### Integers in 7-bit groups (R88, R130, R133) -/

/-- The groups of a nonzero remainder, least significant first; `fuel` bounds their number. -/
def moreGroups : Nat → Nat → List Byte
  | 0, _ => []
  | fuel + 1, r => if r = 0 then [] else BitVec.ofNat 8 (r % 128) :: moreGroups fuel (r / 128)

/-- `TO_DATA(v)` (R130): at least one group, then as many as are needed; 32 bits need at most four more. -/
def toDataBytes (v : Word) : List Byte :=
  BitVec.ofNat 8 (v.toNat % 128) :: moreGroups 4 (v.toNat / 128)

/-- The sum of `p[i] * 2^(7i)` over the bytes `p[i]` (R133), each at its full 8-bit value. -/
def groupSum : List Byte → Nat
  | [] => 0
  | b :: p => b.toNat + 128 * groupSum p

/-- `TO_VALUE(p)` (R133): the sum modulo 2^32. -/
def toValueWord (p : List Byte) : Word := u32 (groupSum p)

/-- A canonical payload (R89). -/
def canonicalPayload (p : List Byte) : Bool :=
  p.all isData && decide (1 ≤ p.length) && (decide (p.length = 1) || p.getLast? != some 0x00#8)

/-! ### Strings (R90, R136, R138) -/

/-- `STR_TO_DATA(str)`: two bytes a character, low seven bits first. -/
def strToDataBytes : List Byte → List Byte
  | [] => []
  | ch :: str => (ch &&& 0x7F#8) :: (ch >>> 7) :: strToDataBytes str

/-- `TO_STRING(p)`: one character per whole pair, modulo 256; an odd last byte is dropped (R139). -/
def toStringBytes : List Byte → List Byte
  | lo :: hi :: p => (lo + (hi <<< 7)) :: toStringBytes p
  | _ => []

end Sys2Proof.Machine
end

