-- ==== Sys2Proof/Machine/Ops.lean ====
section
/-! DEFINITION. The named operations over the state that the meanings share: ending an operation, refusing one
(the block's only error entry, 60_exceptions.md R260), emitting events, the pin-state array, the entry files, the
subscriber list (10_state.md R33), the reactions of the subscribers (43_debounce.md R204, 44_encoder.md R233), and
which expiries are pending (60_exceptions.md R267). -/

namespace Sys2Proof.Machine

/-! ### Result and events -/

/-- Write `result` (R22). -/
def State.finish (st : Status) (d : ResultData) (s : State) : State := { s with result := { status := st, data := d } }

/-- `ok` for an operation that returns nothing (R11, R105). -/
def State.done (s : State) : State := s.finish .ok .empty

/-- `emit` in order (R11, R35): append events to the log. -/
def State.emit (evs : List Event) (s : State) : State := { s with events := s.events ++ evs }

/-- `fail S` (R11, R260): only `result` is written, its data empty. This is the block's one error entry; there is no
return from it (R271). -/
def refuse (st : Status) (s : State) : Out := .next (s.finish st .empty)

/-- A reserved op code on the port: `fail ILLEGAL_OP` (R103). -/
def illegalOp (s : State) : Out := refuse .illegalOp s

/-! ### Pin states (R26) -/

/-- `pin_state[p]`; none is UNKNOWN. -/
def State.pinValue (s : State) (p : Nat) : Option Word := s.pinState.getD p none

/-- `pin_state[p] <- some v`. -/
def State.setPin (p : Nat) (v : Word) (s : State) : State := { s with pinState := s.pinState.set p (some v) }

/-! ### Entry files (R29, R31); a slot the file does not hold reads as a free one (log 9) -/

/-- `db[e]`. -/
def State.dbAt (s : State) (e : Nat) : DbEntry := s.db.getD e DbEntry.reset

/-- `db[e] <- d`. -/
def State.setDb (e : Nat) (d : DbEntry) (s : State) : State := { s with db := s.db.set e d }

/-- `enc[e]`. -/
def State.encAt (s : State) (e : Nat) : EncEntry := s.enc.getD e EncEntry.reset

/-- `enc[e] <- x`. -/
def State.setEnc (e : Nat) (x : EncEntry) (s : State) : State := { s with enc := s.enc.set e x }

/-- Stamp a new entry: `next_seq <- next_seq + 1` (R28). -/
def State.bumpSeq (s : State) : State := { s with nextSeq := s.nextSeq + 1 }

/-! ### Receive buffer (R23, R24) -/

/-- Remove `n` bytes from the head of the buffer (R61). -/
def State.consume (n : Nat) (s : State) : State := { s with rxbuf := s.rxbuf.drop n }

/-- Count `n` lost bytes, modulo 2^32 (R24). -/
def State.addDropped (n : Nat) (s : State) : State := { s with droppedCount := s.droppedCount + u32 n }

/-- The DROPPED event of `n` lost bytes, none for `n = 0` (R162). -/
def droppedEvents (n : Nat) : List Event := if 0 < n then [.dropped (u32 n)] else []

/-! ### Subscribers (R33, R182) -/

/-- A subscriber of a pin: a debounce entry or an encoder entry, by slot. -/
inductive Subscriber where
  | debounce (e : Nat)
  | encoder (e : Nat)
deriving DecidableEq, Repr

/-- The debounce subscribers of pin `p` in a file whose first slot is `n`, each with its `seq`. -/
def dbSubscribers (p : Nat) : Nat → List DbEntry → List (Nat × Subscriber)
  | _, [] => []
  | n, d :: l =>
    if d.valid = true ∧ d.pin = p then (d.seq, .debounce n) :: dbSubscribers p (n + 1) l
    else dbSubscribers p (n + 1) l

/-- The encoder subscribers of pin `p`: the valid entries with `pin1 = p`. A pin2 is not subscribed (R33). -/
def encSubscribers (p : Nat) : Nat → List EncEntry → List (Nat × Subscriber)
  | _, [] => []
  | n, x :: l =>
    if x.valid = true ∧ x.pin1 = p then (x.seq, .encoder n) :: encSubscribers p (n + 1) l
    else encSubscribers p (n + 1) l

/-- Put a subscriber where its `seq` belongs. -/
def insertBySeq (x : Nat × Subscriber) : List (Nat × Subscriber) → List (Nat × Subscriber)
  | [] => [x]
  | y :: l => if x.1 ≤ y.1 then x :: y :: l else y :: insertBySeq x l

/-- Subscribers in ascending `seq`. -/
def sortBySeq : List (Nat × Subscriber) → List (Nat × Subscriber)
  | [] => []
  | x :: l => insertBySeq x (sortBySeq l)

/-- The subscribers of pin `p`, ascending `seq` (R33). -/
def State.subscribers (s : State) (p : Nat) : List Subscriber :=
  (sortBySeq (dbSubscribers p 0 s.db ++ encSubscribers p 0 s.enc)).map (·.2)

/-! ### Reactions (R204, R233) -/

/-- `DbOnChange` on an entry (R204): (re)arm its one delay. -/
def DbEntry.rearm (now : Nat) (d : DbEntry) : DbEntry :=
  { d with armed := true, deadline := now + d.delay.toNat }

/-- `DbOnChange(e)` (R204). -/
def dbOnChange (e : Nat) (s : State) : State := s.setDb e ((s.dbAt e).rearm s.now)

/-- `Level(s)` (R234): high exactly when the state is nonzero. -/
def level (v : Word) : Bool := v != 0#32

/-- The phase of an edge (R235): clockwise when pin1's new level differs from pin2's. -/
def edgePhase (v1 v2 : Word) : Phase := if level v1 != level v2 then .cw else .ccw

/-- `count + d` modulo 2^32 (R237). -/
def Phase.bump : Phase → Word → Word
  | .cw, c => c + 1#32
  | .ccw, c => c - 1#32

/-- The direction event of a detent (R233). -/
def Phase.event : Phase → Byte → Event
  | .cw, e => .encCw e
  | .ccw, e => .encCcw e

/-- The entry after an edge of phase `d` (R233): a first phase is held, a second equal one is a detent, an opposite
one returns to neutral. -/
def EncEntry.afterEdge (d : Phase) (x : EncEntry) : EncEntry :=
  match x.step with
  | none => { x with step := some d }
  | some h => if h = d then { x with step := none, count := d.bump x.count } else { x with step := none }

/-- The events of an edge of phase `d` on the entry in slot `e` (R233, R240): the new count, then the direction, for
a detent; nothing otherwise. -/
def EncEntry.edgeEvents (d : Phase) (e : Byte) (x : EncEntry) : List Event :=
  match x.step with
  | none => []
  | some h => if h = d then [.encCount e (d.bump x.count), d.event e] else []

/-- `EncOnChange(e, v1)` (R233): pin2 is sampled now; an unknown pin2 breaks R32 (log 8). -/
def encOnChange (e : Nat) (v1 : Word) (s : State) : Except Fault State :=
  let x := s.encAt e
  match s.pinValue x.pin2 with
  | none => .error (.pinStateUnknown x.pin2)
  | some v2 =>
    let d := edgePhase v1 v2
    .ok ((s.setEnc e (x.afterEdge d)).emit (x.edgeEvents d (BitVec.ofNat 8 e)))

/-- One subscriber's reaction to its pin's new state `v` (R180). -/
def notify (v : Word) (s : State) : Subscriber → Except Fault State
  | .debounce e => .ok (dbOnChange e s)
  | .encoder e => encOnChange e v s

/-- All reactions, in the order of the list (R180, R182). -/
def notifyAll (v : Word) : List Subscriber → State → Except Fault State
  | [], s => .ok s
  | x :: l, s =>
    match notify v s x with
    | .ok s' => notifyAll v l s'
    | .error f => .error f

/-! ### Pending expiries (R206, R267, R270) -/

/-- DB_EXPIRE `e` is enabled (R206). -/
def State.expiryEnabled (s : State) (e : Byte) : Bool :=
  let d := s.dbAt e.toNat
  d.valid && d.armed && decide (d.deadline ≤ s.now)

/-- The slots whose expiry is pending, in slot order. -/
def State.pendingExpiries (s : State) : List Byte :=
  ((List.range s.db.length).map (BitVec.ofNat 8)).filter s.expiryEnabled

/-- Slot `a` comes before slot `b` in the order of R270: ascending deadline, then ascending `seq`. -/
def State.expiresBefore (s : State) (a b : Byte) : Bool :=
  let x := s.dbAt a.toNat
  let y := s.dbAt b.toNat
  decide (x.deadline < y.deadline ∨ (x.deadline = y.deadline ∧ x.seq ≤ y.seq))

/-- The first of `l` in the order of R270. -/
def earliest (before : Byte → Byte → Bool) : List Byte → Option Byte
  | [] => none
  | a :: l =>
    match earliest before l with
    | none => some a
    | some b => some (if before a b then a else b)

end Sys2Proof.Machine
end

