-- ==== Sys2Proof/Machine/Flags.lean ====
section
/-! DEFINITION. The block's only flag is `result.status` (10_state.md R22): its codes (30_encoding.md R104), and how a
verdict, an overflow and an event kind give theirs (R106). -/

namespace Sys2Proof.Machine

/-- The 8-bit status code (R104). -/
def Status.code : Status → Byte
  | .ok => 0x00
  | .needMore => 0x01
  | .malformed => 0x02
  | .invalidId => 0x03
  | .outOfRange => 0x04
  | .entryBusy => 0x05
  | .entryFree => 0x06
  | .samePin => 0x07
  | .pinUnknown => 0x08
  | .overflow => 0x09
  | .illegalOp => 0x0A

/-- The status is a refusal, not OK or a verdict (R261). -/
def Status.isRefusal : Status → Bool
  | .ok | .needMore | .malformed | .overflow => false
  | .invalidId | .outOfRange | .entryBusy | .entryFree | .samePin | .pinUnknown | .illegalOp => true

/-- The status of a parse verdict (R124). -/
def Verdict.status : Verdict → Status
  | .msg _ _ _ _ => .ok
  | .needMore _ => .needMore
  | .malformed _ _ => .malformed

/-- The status of RX_PUSH (R160): OVERFLOW exactly when bytes were flushed. -/
def pushStatus (flushed : Nat) : Status := if 0 < flushed then .overflow else .ok

/-- The kind code of an event (R106). -/
def Event.kind : Event → Byte
  | .msg _ _ => 0x01
  | .dropped _ => 0x02
  | .dbPublish _ _ => 0x10
  | .encCount _ _ => 0x20
  | .encCw _ => 0x21
  | .encCcw _ => 0x22

end Sys2Proof.Machine
end

