-- ==== Sys2Proof/Machine/Codec.lean ====
section
/-! DEFINITION. The codec operations (40_codec.md): FRAME, PARSE, TO_DATA, TO_VALUE, STR_TO_DATA, TO_STRING. They write
only `result`. -/

namespace Sys2Proof.Machine

/-- FRAME (R120, R121). -/
def execFrame (id : Word) (payload : List Byte) (s : State) : Out :=
  match frameBytes id payload with
  | some bytes => .next (s.finish .ok (.bytes bytes))
  | none => refuse .invalidId s

/-- PARSE (R124). -/
def execParse (buf : List Byte) (s : State) : Out :=
  let v := parse s.cfg buf
  .next (s.finish v.status (.verdict v))

/-- TO_DATA (R130). -/
def execToData (v : Word) (s : State) : Out := .next (s.finish .ok (.payload (toDataBytes v)))

/-- TO_VALUE (R133). -/
def execToValue (payload : List Byte) (s : State) : Out := .next (s.finish .ok (.number (toValueWord payload)))

/-- STR_TO_DATA (R136). -/
def execStrToData (str : List Byte) (s : State) : Out := .next (s.finish .ok (.payload (strToDataBytes str)))

/-- TO_STRING (R138). -/
def execToString (payload : List Byte) (s : State) : Out := .next (s.finish .ok (.str (toStringBytes payload)))

end Sys2Proof.Machine
end

