-- ==== Sys2Proof/Machine/Operands.lean ====
section
/-! DEFINITION. The operand checks of the operations (30_encoding.md R102, 60_exceptions.md R264): a pin position, a
debounce slot, an encoder slot, a register number. No operand is scaled or sign-extended (R102). -/

namespace Sys2Proof.Machine

/-- `p < N_PINS`. -/
def State.pinInRange (s : State) (p : Byte) : Bool := decide (p.toNat < s.cfg.nPins)

/-- `e < N_DB`. -/
def State.dbInRange (s : State) (e : Byte) : Bool := decide (e.toNat < s.cfg.nDb)

/-- `e < N_ENC`. -/
def State.encInRange (s : State) (e : Byte) : Bool := decide (e.toNat < s.cfg.nEnc)

/-- The value of status register `r` (10_state.md R37), none for a reserved number. RX_CAP (0x08) above 32 bits reads as a
free value (log 19). -/
def State.register (s : State) (r : Byte) : Option Word :=
  match r.toNat with
  | 0x00 => some (u32 s.rxbuf.length)
  | 0x01 => some s.droppedCount
  | 0x02 => some s.overflowCount
  | 0x03 => some (u32 s.now)
  | 0x04 => some (u32 (s.now >>> 32))
  | 0x05 => some (u32 s.cfg.nPins)
  | 0x06 => some (u32 s.cfg.nDb)
  | 0x07 => some (u32 s.cfg.nEnc)
  | 0x08 => some (rxCapReading s.cfg.rxCap)
  | 0x09 => some (u32 s.nextSeq)
  | _ => none

end Sys2Proof.Machine
end

