-- ==== Sys2Proof/Machine/Debounce.lean ====
section
/-! DEFINITION. The debounce filter (43_debounce.md): DB_CREATE, DB_REMOVE and the timebase's step DB_EXPIRE. -/

namespace Sys2Proof.Machine

/-- A new debounce entry (R200, R201): nothing published, nothing armed. -/
def DbEntry.fresh (pin : Nat) (delay : Word) (seq : Nat) : DbEntry :=
  { valid := true, pin := pin, delay := delay, last := none, armed := false, deadline := 0, seq := seq }

/-- DB_CREATE (R200); the checks in the order of R264. -/
def execDbCreate (e pin : Byte) (delay : Word) (s : State) : Out :=
  if s.dbInRange e = false then refuse .outOfRange s
  else if s.pinInRange pin = false then refuse .outOfRange s
  else if (s.dbAt e.toNat).valid then refuse .entryBusy s
  else .next (s.setDb e.toNat (DbEntry.fresh pin.toNat delay s.nextSeq)).bumpSeq.done

/-- DB_REMOVE (R202, R203): the delay is cancelled and the subscription removed within the one step. -/
def execDbRemove (e : Byte) (s : State) : Out :=
  if s.dbInRange e = false then refuse .outOfRange s
  else if (s.dbAt e.toNat).valid = false then refuse .entryFree s
  else .next (s.setDb e.toNat DbEntry.reset).done

/-- The entry after its delay elapsed with the pin at `cur` (R206). -/
def DbEntry.expired (cur : Word) (d : DbEntry) : DbEntry := { d with armed := false, last := some cur }

/-- What the expiry publishes (R206): the current state, unless it is the one last published. -/
def DbEntry.expiryEvents (cur : Word) (e : Byte) (d : DbEntry) : List Event :=
  if d.last = some cur then [] else [.dbPublish e cur]

/-- DB_EXPIRE (R206): the delay of an entry elapses. It writes no `result`. Where it is not enabled there is no such
step (log 7); an unknown pin state breaks R30 (log 8). -/
def execDbExpire (e : Byte) (s : State) : Out :=
  if s.expiryEnabled e = false then .refused (.expiryNotEnabled e)
  else
    let d := s.dbAt e.toNat
    match s.pinValue d.pin with
    | none => .fault (.pinStateUnknown d.pin)
    | some cur => .next ((s.setDb e.toNat (d.expired cur)).emit (d.expiryEvents cur e))

end Sys2Proof.Machine
end

