-- ==== Sys2Proof/Machine/Encoder.lean ====
section
/-! DEFINITION. The quadrature decoder (44_encoder.md): ENC_CREATE, ENC_REMOVE, ENC_READ. Its reaction to pin changes
is `encOnChange` in Ops.lean. -/

namespace Sys2Proof.Machine

/-- A new encoder entry (R230): neutral, count 0. -/
def EncEntry.fresh (pin1 pin2 seq : Nat) : EncEntry :=
  { valid := true, pin1 := pin1, pin2 := pin2, step := none, count := 0, seq := seq }

/-- ENC_CREATE (R230, R231); the checks in the order of R264. -/
def execEncCreate (e pin1 pin2 : Byte) (s : State) : Out :=
  if s.encInRange e = false then refuse .outOfRange s
  else if s.pinInRange pin1 = false ∨ s.pinInRange pin2 = false then refuse .outOfRange s
  else if (s.encAt e.toNat).valid then refuse .entryBusy s
  else if pin1 = pin2 then refuse .samePin s
  else if s.pinValue pin1.toNat = none ∨ s.pinValue pin2.toNat = none then refuse .pinUnknown s
  else .next (s.setEnc e.toNat (EncEntry.fresh pin1.toNat pin2.toNat s.nextSeq)).bumpSeq.done

/-- ENC_REMOVE (R232). -/
def execEncRemove (e : Byte) (s : State) : Out :=
  if s.encInRange e = false then refuse .outOfRange s
  else if (s.encAt e.toNat).valid = false then refuse .entryFree s
  else .next (s.setEnc e.toNat EncEntry.reset).done

/-- ENC_READ (R238). -/
def execEncRead (e : Byte) (s : State) : Out :=
  if s.encInRange e = false then refuse .outOfRange s
  else if (s.encAt e.toNat).valid = false then refuse .entryFree s
  else .next (s.finish .ok (.count (s.encAt e.toNat).count))

end Sys2Proof.Machine
end

