-- ==== Sys2Proof/Machine/Framer.lean ====
section
/-! DEFINITION. The receive framer (41_rx_framer.md): RX_PUSH and RX_STEP. -/

namespace Sys2Proof.Machine

/-- The buffer is full (R161). -/
def State.rxFull (s : State) : Bool :=
  match s.cfg.rxCap with
  | none => false
  | some c => decide (s.rxbuf.length = c)

/-- Discard the whole buffer and count the loss (R160, R161). -/
def State.flush (s : State) : State :=
  let n := s.rxbuf.length
  { ((s.consume n).addDropped n).emit [.dropped (u32 n)] with overflowCount := s.overflowCount + 1#32 }

/-- Append one byte at the tail (R61). -/
def State.append (b : Byte) (s : State) : State := { s with rxbuf := s.rxbuf ++ [b] }

/-- RX_PUSH (R160, R161). -/
def execRxPush (b : Byte) (s : State) : Out :=
  if s.rxFull then
    .next ((s.flush.append b).finish (pushStatus s.rxbuf.length) (.flushed s.rxbuf.length))
  else .next ((s.append b).finish (pushStatus 0) (.flushed 0))

/-- RX_STEP on a given verdict (R162). -/
def applyVerdict (s : State) : Verdict → State
  | .msg k n id p =>
    (((s.consume (k + n)).addDropped k).emit (droppedEvents k ++ [.msg id p])).finish .ok (.message k id p)
  | .needMore k => (((s.consume k).addDropped k).emit (droppedEvents k)).finish .needMore (.dropped k)
  | .malformed k n =>
    (((s.consume (k + n)).addDropped (k + n)).emit [.dropped (u32 (k + n))]).finish .malformed (.dropped (k + n))

/-- RX_STEP (R162): apply one parse verdict to the head of the buffer. -/
def execRxStep (s : State) : Out := .next (applyVerdict s (parse s.cfg s.rxbuf))

end Sys2Proof.Machine
end

