-- ==== Sys2Proof/Machine/PinTime.lean ====
section
/-! DEFINITION. The pin-state input and the timebase (42_pin_time.md): PIN_CHANGE and TICK. -/

namespace Sys2Proof.Machine

/-- The state after a changed pin state is stored and every subscriber of the pin has reacted (R180). -/
def deliver (p : Nat) (v : Word) (s : State) : Except Fault State :=
  let s1 := s.setPin p v
  notifyAll v (s1.subscribers p) s1

/-- PIN_CHANGE (R180, R181, R182). -/
def execPinChange (p : Byte) (v : Word) (s : State) : Out :=
  if s.pinInRange p = false then refuse .outOfRange s
  else if s.pinValue p.toNat = some v then .next s.done
  else
    match deliver p.toNat v s with
    | .ok t => .next t.done
    | .error f => .fault f

/-- TICK (R183). -/
def execTick (s : State) : Out := .next { s with now := s.now + 1 }.done

end Sys2Proof.Machine
end

