-- ==== Sys2Proof/Machine/System.lean ====
section
/-! DEFINITION. READ_REG and RESET (70_reset_and_hazards.md). -/

namespace Sys2Proof.Machine

/-- READ_REG (R294). -/
def execReadReg (r : Byte) (s : State) : Out :=
  match s.register r with
  | some v => .next (s.finish .ok (.value v))
  | none => refuse .outOfRange s

/-- RESET (R290): every element at its reset value but `events`. The parameters, the port's pending bytes and the
scheduler's choices are no state of the block (log 10). -/
def execReset (s : State) : Out :=
  .next { State.powerOn s.cfg with
    events := s.events, port := s.port, turns := s.turns, turnCount := s.turnCount }.done

end Sys2Proof.Machine
end

