-- ==== Sys2Proof/Machine/Dispatch.lean ====
section
/-! DEFINITION. One arm per operation: which meaning each constructor of Instr has. -/

namespace Sys2Proof.Machine

def exec (i : Instr) (s : State) : Host.Outcome State Fault Refusal :=
  match i with
  | .frame id payload => Sys2Proof.Machine.execFrame id payload s
  | .parse buf => Sys2Proof.Machine.execParse buf s
  | .toData v => Sys2Proof.Machine.execToData v s
  | .toValue payload => Sys2Proof.Machine.execToValue payload s
  | .strToData str => Sys2Proof.Machine.execStrToData str s
  | .toString payload => Sys2Proof.Machine.execToString payload s
  | .rxPush b => Sys2Proof.Machine.execRxPush b s
  | .rxStep => Sys2Proof.Machine.execRxStep s
  | .pinChange p v => Sys2Proof.Machine.execPinChange p v s
  | .tick => Sys2Proof.Machine.execTick s
  | .dbCreate e pin delay => Sys2Proof.Machine.execDbCreate e pin delay s
  | .dbRemove e => Sys2Proof.Machine.execDbRemove e s
  | .dbExpire e => Sys2Proof.Machine.execDbExpire e s
  | .encCreate e pin1 pin2 => Sys2Proof.Machine.execEncCreate e pin1 pin2 s
  | .encRemove e => Sys2Proof.Machine.execEncRemove e s
  | .encRead e => Sys2Proof.Machine.execEncRead e s
  | .readReg r => Sys2Proof.Machine.execReadReg r s
  | .reset => Sys2Proof.Machine.execReset s

end Sys2Proof.Machine
end

