-- ==== Sys2Proof/Decode.lean ====
section
/-! DEFINITION. From bytes to operations (30_encoding.md R100, R101, R103; 60_exceptions.md R265) and back: the byte
order helpers, the decoder of step labels, the decoder of the command port, the encoder. -/

namespace Sys2Proof

/-! ### Operand readers (R101: scalars little-endian, lists with a 16-bit little-endian length) -/

/-- One byte. -/
def readU8 : List Byte → Option (Byte × List Byte)
  | b :: r => some (b, r)
  | [] => none

/-- Four bytes, the least significant first (R68). -/
def readU32 : List Byte → Option (Word × List Byte)
  | b0 :: b1 :: b2 :: b3 :: r => some (b3 ++ b2 ++ b1 ++ b0, r)
  | _ => none

/-- A 16-bit length `n`, least significant byte first, then `n` bytes. -/
def readList : List Byte → Option (List Byte × List Byte)
  | l0 :: l1 :: r =>
    let n := l0.toNat + 256 * l1.toNat
    if n ≤ r.length then some (r.take n, r.drop n) else none
  | _ => none

/-- What stands at the head of a byte stream. -/
inductive Decoded where
  /-- a whole operation, and the bytes after it -/
  | command (i : Instr) (rest : List Byte)
  /-- an op byte that names no operation, delivered alone (R103, R265) -/
  | reserved (op : Byte) (rest : List Byte)
  /-- the bytes end before the last operand: nothing is delivered (R265) -/
  | incomplete
deriving DecidableEq, Repr

/-! ### Operand layouts: one reader per operand shape of R100 -/

/-- No operands. -/
def withNone (i : Instr) (r : List Byte) : Decoded := .command i r

/-- One 8-bit operand. -/
def withU8 (mk : Byte → Instr) (r : List Byte) : Decoded :=
  match readU8 r with
  | some (a, r1) => .command (mk a) r1
  | none => .incomplete

/-- One 32-bit operand. -/
def withU32 (mk : Word → Instr) (r : List Byte) : Decoded :=
  match readU32 r with
  | some (v, r1) => .command (mk v) r1
  | none => .incomplete

/-- One list operand. -/
def withList (mk : List Byte → Instr) (r : List Byte) : Decoded :=
  match readList r with
  | some (l, r1) => .command (mk l) r1
  | none => .incomplete

/-- A 32-bit operand, then a list (FRAME). -/
def withU32List (mk : Word → List Byte → Instr) (r : List Byte) : Decoded :=
  match readU32 r with
  | some (v, r1) => withList (mk v) r1
  | none => .incomplete

/-- An 8-bit operand, then a 32-bit one (PIN_CHANGE). -/
def withU8U32 (mk : Byte → Word → Instr) (r : List Byte) : Decoded :=
  match readU8 r with
  | some (a, r1) => withU32 (mk a) r1
  | none => .incomplete

/-- Two 8-bit operands, then a 32-bit one (DB_CREATE). -/
def withU8U8U32 (mk : Byte → Byte → Word → Instr) (r : List Byte) : Decoded :=
  match readU8 r with
  | some (a, r1) => withU8U32 (mk a) r1
  | none => .incomplete

/-- Three 8-bit operands (ENC_CREATE). -/
def withU8U8U8 (mk : Byte → Byte → Byte → Instr) (r : List Byte) : Decoded :=
  match r with
  | a :: b :: c :: r1 => .command (mk a b c) r1
  | _ => .incomplete

/-- The operation an op byte selects, with its operands read from `r`: the table of R100. A byte not in it is
reserved and its operands are not looked at (R264, R265). -/
def decodeOp (op : Byte) (r : List Byte) : Decoded :=
  match op.toNat with
  | 0x01 => withU32List .frame r
  | 0x02 => withList .parse r
  | 0x03 => withU32 .toData r
  | 0x04 => withList .toValue r
  | 0x05 => withList .strToData r
  | 0x06 => withList .toString r
  | 0x10 => withU8 .rxPush r
  | 0x11 => withNone .rxStep r
  | 0x20 => withU8U32 .pinChange r
  | 0x21 => withNone .tick r
  | 0x30 => withU8U8U32 .dbCreate r
  | 0x31 => withU8 .dbRemove r
  | 0x32 => withU8 .dbExpire r
  | 0x40 => withU8U8U8 .encCreate r
  | 0x41 => withU8 .encRemove r
  | 0x42 => withU8 .encRead r
  | 0x50 => withU8 .readReg r
  | 0x7F => withNone .reset r
  | _ => .reserved op r

/-- The decoder of step labels: every row of the opcode table, the timebase's label 0x32 among them (R206). -/
def decode : List Byte → Decoded
  | op :: r => decodeOp op r
  | [] => .incomplete

/-- The decoder of the command port: 0x32 is a reserved op byte there (R103). -/
def decodePort : List Byte → Decoded
  | op :: r => if op = 0x32#8 then .reserved op r else decodeOp op r
  | [] => .incomplete

/-! ### The encoder (R101) -/

/-- The op byte of each operation (R100). -/
def Instr.opcode : Instr → Byte
  | .frame _ _ => 0x01
  | .parse _ => 0x02
  | .toData _ => 0x03
  | .toValue _ => 0x04
  | .strToData _ => 0x05
  | .toString _ => 0x06
  | .rxPush _ => 0x10
  | .rxStep => 0x11
  | .pinChange _ _ => 0x20
  | .tick => 0x21
  | .dbCreate _ _ _ => 0x30
  | .dbRemove _ => 0x31
  | .dbExpire _ => 0x32
  | .encCreate _ _ _ => 0x40
  | .encRemove _ => 0x41
  | .encRead _ => 0x42
  | .readReg _ => 0x50
  | .reset => 0x7F

/-- A 32-bit scalar as four bytes, the least significant first (R68). -/
def bytesOfU32 (v : Word) : List Byte :=
  [v.extractLsb' 0 8, v.extractLsb' 8 8, v.extractLsb' 16 8, v.extractLsb' 24 8]

/-- A list operand: its 16-bit little-endian length, then its bytes (R101). -/
def bytesOfList (l : List Byte) : List Byte :=
  BitVec.ofNat 8 l.length :: BitVec.ofNat 8 (l.length / 256) :: l

/-- The operand bytes of an operation, in the order of R100. -/
def Instr.operandBytes : Instr → List Byte
  | .frame id payload => bytesOfU32 id ++ bytesOfList payload
  | .parse buf => bytesOfList buf
  | .toData v => bytesOfU32 v
  | .toValue payload => bytesOfList payload
  | .strToData str => bytesOfList str
  | .toString payload => bytesOfList payload
  | .rxPush b => [b]
  | .rxStep => []
  | .pinChange p v => p :: bytesOfU32 v
  | .tick => []
  | .dbCreate e pin delay => e :: pin :: bytesOfU32 delay
  | .dbRemove e => [e]
  | .dbExpire e => [e]
  | .encCreate e pin1 pin2 => [e, pin1, pin2]
  | .encRemove e => [e]
  | .encRead e => [e]
  | .readReg r => [r]
  | .reset => []

/-- The serialised form of an operation: its op byte, then its operands (R101). -/
def encode (i : Instr) : List Byte := i.opcode :: i.operandBytes

/-! ### Words of the opcode table -/

/-- The low `n` bytes of `w`, the least significant first: how the table numbers an instruction's bits. -/
def bytesOfNat : Nat → Nat → List Byte
  | 0, _ => []
  | n + 1, w => BitVec.ofNat 8 w :: bytesOfNat n (w / 256)

/-- The longest operation with its lists empty: FRAME and DB_CREATE, 7 bytes. -/
def longestBytes : Nat := 7

/-- The table's word `w` laid out as the command's bytes, zeros above its `nbits` bits. -/
def tableBytes (nbits w : Nat) : List Byte :=
  bytesOfNat (max longestBytes (nbits / 8)) (w % 2 ^ nbits)

/-- The operation the decoder reads from a word of the opcode table, or none where it refuses. -/
def decodeTableWord (nbits w : Nat) : Option Instr :=
  match decode (tableBytes nbits w) with
  | .command i _ => some i
  | .reserved _ _ => none
  | .incomplete => none

end Sys2Proof
end

