-- ==== Sys2Proof/Machine/Sched.lean ====
section
/-! DEFINITION. Which step the block takes next (00_scope.md R15, 43_debounce.md R207, 60_exceptions.md R265, R270):
the timebase's expiry the scheduler chose, or the host's next command, or nothing; and placing a step label where it
is taken next. -/

namespace Sys2Proof.Machine

/-- The scheduler's next choice: the first of `turns`; past its end, a free value (log 5). -/
def State.nextTurn (s : State) : Turn :=
  match s.turns with
  | t :: _ => t
  | [] => Config.freeTurn s.turnCount

/-- The scheduler's choice is used up. -/
def State.advance (s : State) : State :=
  match s.turns with
  | _ :: l => { s with turns := l }
  | [] => { s with turnCount := s.turnCount + 1 }

/-- The slot whose expiry the scheduler takes before the host's next command: its choice, if that expiry is pending.
With nothing pending the choice does not matter and is not looked at. -/
def State.chosenExpiry (s : State) : Option Byte :=
  if s.pendingExpiries = [] then none
  else
    match s.nextTurn with
    | .host => none
    | .expire e => if s.expiryEnabled e then some e else none

/-- The step the block takes next. -/
inductive Selected where
  /-- the timebase's step -/
  | expiry (e : Byte)
  /-- the host's command, and the port's bytes after it -/
  | command (i : Instr) (rest : List Byte)
  /-- a reserved op byte, and the port's bytes after it -/
  | reserved (rest : List Byte)
  /-- no whole command waits and nothing is pending -/
  | idle
deriving DecidableEq, Repr

/-- The chosen expiry; else the next command of the port; else, where the port holds no whole command, the earliest
pending expiry in the order of R270 (log 6); else nothing. -/
def State.select (s : State) : Selected :=
  match s.chosenExpiry with
  | some e => .expiry e
  | none =>
    match decodePort s.port with
    | .command i rest => .command i rest
    | .reserved _ rest => .reserved rest
    | .incomplete =>
      match earliest s.expiresBefore s.pendingExpiries with
      | some e => .expiry e
      | none => .idle

/-- The state in which the host's command runs: its bytes are off the port and the scheduler's choice is used. -/
def State.fetched (rest : List Byte) (s : State) : State := { s with port := rest }.advance

/-- Give slot `e` a due expiry, so that the timebase can take it next: the slot's entry (a new one on pin 0 if it is
free) is armed with a deadline of now, on a pin whose state is known (log 11). -/
def State.arm (e : Byte) (s : State) : State :=
  let s1 := if (s.dbAt e.toNat).valid then s else (s.setDb e.toNat (DbEntry.fresh 0 0 s.nextSeq)).bumpSeq
  let d := s1.dbAt e.toNat
  let s2 := s1.setDb e.toNat { d with armed := true, deadline := s1.now }
  match s2.pinValue d.pin with
  | some _ => s2
  | none => s2.setPin d.pin 0#32

/-- Place a step label where the next step takes it: the timebase's label as its next choice, a due expiry made for
it where there is none; a command at the head of the port, on the host's turn. -/
def State.place (bytes : List Byte) (s : State) : State :=
  match decode bytes with
  | .command (.dbExpire e) _ =>
    let s1 := if s.expiryEnabled e then s else s.arm e
    { s1 with turns := .expire e :: s.turns }
  | _ => { s with port := bytes ++ s.port, turns := .host :: s.turns }

end Sys2Proof.Machine
end

