-- ==== Sys2Proof/Machine/Step.lean ====
section
/-! DEFINITION. One step of the block: one host operation or one autonomous expiry (00_scope.md R3, R15). -/

namespace Sys2Proof.Machine

/-- One atomic step (R11, R72). A reserved op byte performs `fail ILLEGAL_OP` (R103). With no whole command on the
port and nothing pending, the block waits with its state unchanged (R265, R280). -/
def step (s : State) : Host.Outcome State Fault Refusal :=
  match s.select with
  | .expiry e => exec (.dbExpire e) s.advance
  | .command i rest => exec i (s.fetched rest)
  | .reserved rest => illegalOp (s.fetched rest)
  | .idle => .next s

/-- `s` with the table's word `w` placed so that the very next step runs it (log 3, log 11). -/
def State.withFetchWord (s : State) (nbits w : Nat) : State := s.place (tableBytes nbits w)

end Sys2Proof.Machine
end

