-- ==== Sys2Proof/Machine/HostSide.lean ====
section
/-! DEFINITION. The host's side of the command port, as far as the spec gives it: running a list of operations, the
pseudo-instructions (30_encoding.md R108), the assembler text (R107), ticks from milliseconds (42_pin_time.md R184),
port messages (70_reset_and_hazards.md R306) and 14-bit standard payloads (R305). No step of the block uses them. -/

namespace Sys2Proof.Machine

/-- Operations and expiries taken one after the other, stopping where one has no next state. -/
def runOps : List Instr → State → Out
  | [], s => .next s
  | i :: l, s =>
    match exec i s with
    | .next t => runOps l t
    | .fault f => .fault f
    | .refused r => .refused r

/-- `WAIT n` (R108). -/
def waitTicks (n : Nat) : List Instr := List.replicate n .tick

/-- `RX_FEED [b0, ..., bk]` (R108). -/
def rxFeed (bytes : List Byte) : List Instr := bytes.map .rxPush

/-- `n` consecutive RX_STEPs: `RX_DRAIN` (R108) is these for an `n` that reaches NEED_MORE with nothing dropped. -/
def rxSteps (n : Nat) : List Instr := List.replicate n .rxStep

/-- The step that ends `RX_DRAIN` was just taken (R108). -/
def State.drained (s : State) : Bool := decide (s.result = { status := .needMore, data := .dropped 0 })

/-- `SEND id, payload` (R108) on the block is FRAME; the host then writes these bytes to the transport. -/
def sentBytes (s : State) : List Byte :=
  match s.result.data with
  | .bytes l => l
  | _ => []

/-- A delay in milliseconds as ticks: `ceil(ms / TICK_PERIOD)` (R184). -/
def ticksOfMs (c : Config) (ms : Rat) : Nat := (ms / c.tickPeriodMs).ceil.toNat

/-- The PIN_CHANGEs of one port message (R306): for each pin of the port that `updates` selects, ascending, bit `k`
of the bitmask is the state of pin `8 * port + k`. -/
def portMessage (port : Nat) (mask updates : Byte) : List Instr :=
  ((List.range 8).filter fun k => updates.getLsbD k).map fun k =>
    .pinChange (BitVec.ofNat 8 (8 * port + k)) (if mask.getLsbD k then 1 else 0)

/-- A 14-bit value as a standard payload of two bytes (R91, R305). -/
def std14 (v : BitVec 14) : List Byte := [(v.extractLsb' 0 7).setWidth 8, (v.extractLsb' 7 7).setWidth 8]

/-- A list operand in assembler text (R107). -/
def asmList (l : List Byte) : String := "[" ++ ", ".intercalate (l.map fun b => toString b.toNat) ++ "]"

/-- A program line (R107): the mnemonic, then the operands in order; scalars in decimal. -/
def asm : Instr → String
  | .frame id payload => "FRAME " ++ toString id.toNat ++ ", " ++ asmList payload
  | .parse buf => "PARSE " ++ asmList buf
  | .toData v => "TO_DATA " ++ toString v.toNat
  | .toValue payload => "TO_VALUE " ++ asmList payload
  | .strToData str => "STR_TO_DATA " ++ asmList str
  | .toString payload => "TO_STRING " ++ asmList payload
  | .rxPush b => "RX_PUSH " ++ toString b.toNat
  | .rxStep => "RX_STEP"
  | .pinChange p v => "PIN_CHANGE " ++ toString p.toNat ++ ", " ++ toString v.toNat
  | .tick => "TICK"
  | .dbCreate e pin delay => "DB_CREATE " ++ toString e.toNat ++ ", " ++ toString pin.toNat ++ ", " ++ toString delay.toNat
  | .dbRemove e => "DB_REMOVE " ++ toString e.toNat
  | .dbExpire e => "@EXPIRE " ++ toString e.toNat
  | .encCreate e pin1 pin2 =>
    "ENC_CREATE " ++ toString e.toNat ++ ", " ++ toString pin1.toNat ++ ", " ++ toString pin2.toNat
  | .encRemove e => "ENC_REMOVE " ++ toString e.toNat
  | .encRead e => "ENC_READ " ++ toString e.toNat
  | .readReg r => "READ_REG " ++ toString r.toNat
  | .reset => "RESET"

end Sys2Proof.Machine
end

