-- ==== Sys2Proof/Safety.lean ====
section
/-! DEFINITION. What holds of every state of a run: the shape of the arrays and the invariants the spec states
(10_state.md R23, R25, R28, R30, R32). -/

namespace Sys2Proof.Machine

/-- The `seq` values of the valid entries, debounce and encoder together (R30). -/
def State.liveSeqs (s : State) : List Nat :=
  (s.db.filter (·.valid)).map (·.seq) ++ (s.enc.filter (·.valid)).map (·.seq)

/-- The arrays have the lengths the parameters give (R26, R29, R31). -/
structure State.Shaped (s : State) : Prop where
  pins : s.pinState.length = s.cfg.nPins
  db : s.db.length = s.cfg.nDb
  enc : s.enc.length = s.cfg.nEnc

/-- A debounce entry as R29, R30 and R202 have it: a free one is at its reset value, a live one watches a pin that
exists, an armed one a pin whose state is known. -/
structure DbEntry.Sound (s : State) (d : DbEntry) : Prop where
  free : d.valid = false → d = DbEntry.reset
  pin : d.valid = true → d.pin < s.cfg.nPins
  known : d.armed = true → (s.pinValue d.pin).isSome = true
  stamped : d.valid = true → d.seq < s.nextSeq

/-- An encoder entry as R31, R32 and R232 have it. -/
structure EncEntry.Sound (s : State) (x : EncEntry) : Prop where
  free : x.valid = false → x = EncEntry.reset
  pins : x.valid = true → x.pin1 < s.cfg.nPins ∧ x.pin2 < s.cfg.nPins
  distinct : x.valid = true → x.pin1 ≠ x.pin2
  known : x.valid = true → (s.pinValue x.pin1).isSome = true ∧ (s.pinValue x.pin2).isSome = true
  stamped : x.valid = true → x.seq < s.nextSeq

/-- The invariant of the block. -/
structure State.Inv (s : State) : Prop where
  cfg : s.cfg.wf = true
  shaped : s.Shaped
  /-- The buffer never holds more than `RX_CAP` bytes (R23). -/
  rxBound : ∀ c, s.cfg.rxCap = some c → s.rxbuf.length ≤ c
  /-- Without a capacity nothing overflows (R25). -/
  noOverflow : s.cfg.rxCap = none → s.overflowCount = 0#32
  db : ∀ d ∈ s.db, d.Sound s
  enc : ∀ x ∈ s.enc, x.Sound s
  /-- Live entries have distinct `seq` values (R30). -/
  seqs : s.liveSeqs.Nodup

/-! ### Words the statements about the receive stream and the encoder use -/

/-- The MSG events of a log, in order. -/
def msgEvents (l : List Event) : List (Word × List Byte) :=
  l.filterMap fun ev =>
    match ev with
    | .msg id payload => some (id, payload)
    | _ => none

/-- The events of encoder slot `e` in a log, in order. -/
def encEventsOf (e : Byte) (l : List Event) : List Event :=
  l.filter fun ev =>
    match ev with
    | .encCount e' _ | .encCw e' | .encCcw e' => decide (e' = e)
    | .msg _ _ | .dropped _ | .dbPublish _ _ => false

/-- The events of debounce slot `e` in a log, in order. -/
def dbEventsOf (e : Byte) (l : List Event) : List Event :=
  l.filter fun ev =>
    match ev with
    | .dbPublish e' _ => decide (e' = e)
    | .msg _ _ | .dropped _ | .encCount _ _ | .encCw _ | .encCcw _ => false

/-- The operation is one of the receive framer's. -/
def isRxOp : Instr → Bool
  | .rxPush _ | .rxStep => true
  | _ => false

/-- The bytes a list of operations pushes, in order. -/
def pushedBytes (ops : List Instr) : List Byte :=
  ops.filterMap fun i =>
    match i with
    | .rxPush b => some b
    | _ => none

/-- No RX_PUSH of the run finds the buffer full (R161, R165). -/
def NoOverflow (ops : List Instr) (s : State) : Prop :=
  ∀ pre b post u, ops = pre ++ .rxPush b :: post → runOps pre s = .next u → u.rxFull = false

end Sys2Proof.Machine
end

