-- ==== Sys2Proof/Certificates/Slice0/Obligations.lean ====
section
/-! DEFINITION. The statements about the block, one definition each; OBLIGATIONS.json lists them with the rules they
formalise. -/

open Sys2Proof Sys2Proof.Machine

/-! ### Encoding -/

/-- Every operation that fits its serialised form is read back whole from its encoding, whatever bytes follow
(30_encoding.md R100, R101); the command port reads back every one but the timebase's label (R103). -/
def Obligations.DecodeOfEncodeGivesTheOperation : Prop :=
  ∀ (i : Instr) (rest : List Byte), i.wf = true →
    decode (encode i ++ rest) = .command i rest ∧
      (i.onPort = true → decodePort (encode i ++ rest) = .command i rest)

/-- A byte stream from which an operation is read begins with that operation's encoding, and the rest is what the
decoder leaves: each word has one meaning (R101). -/
def Obligations.DecodedBytesAreTheOperationsEncoding : Prop :=
  ∀ (bytes rest : List Byte) (i : Instr), decode bytes = .command i rest →
    i.wf = true ∧ bytes = encode i ++ rest

/-- A command whose bytes end before its last operand is not an operation (R265): the port delivers nothing, and with
no expiry pending the block's state does not change. -/
def Obligations.TruncatedCommandChangesNothing : Prop :=
  ∀ (i : Instr) (n : Nat), i.wf = true → i.onPort = true → n < (encode i).length →
    decodePort ((encode i).take n) = .incomplete ∧
      ∀ s : State, s.port = (encode i).take n → s.pendingExpiries = [] → step s = .next s

/-- Encoded lines of the programs P1 to P4 of 95_test_vectors.md. -/
def Obligations.WordsOfTheProgramsDecode : Prop :=
  decodePort [0x01, 0x23, 0x01, 0xF0, 0x00, 0x01, 0x00, 0x01] = .command (.frame 0x00F00123 [0x01]) [] ∧
  decodePort [0x03, 0x2C, 0x01, 0x00, 0x00] = .command (.toData 300) [] ∧
  decodePort [0x10, 0x81, 0x10, 0xF0] = .command (.rxPush 0x81) [0x10, 0xF0] ∧
  decodePort [0x20, 0x03, 0x01, 0x00, 0x00, 0x00] = .command (.pinChange 3 1) [] ∧
  decodePort [0x30, 0x00, 0x03, 0x32, 0x00, 0x00, 0x00] = .command (.dbCreate 0 3 50) [] ∧
  decodePort [0x40, 0x00, 0x00, 0x01] = .command (.encCreate 0 0 1) [] ∧
  decodePort [0x50, 0x01] = .command (.readReg 1) [] ∧
  decode [0x32, 0x02] = .command (.dbExpire 2) []

/-! ### Steps -/

/-- A whole command at the head of the port runs as the operation it decodes to, when it is the host's turn or no
expiry is pending. Before it runs, its bytes leave the port and one choice of the scheduler is used. -/
def Obligations.StepRunsTheDecodedCommand : Prop :=
  ∀ (s : State) (i : Instr) (rest : List Byte), s.pendingExpiries = [] ∨ s.nextTurn = .host →
    decodePort s.port = .command i rest →
    step s = exec i { s with
      port := rest
      turns := s.turns.tail
      turnCount := if s.turns = [] then s.turnCount + 1 else s.turnCount }

/-- An op byte outside the table of R100, and 0x32 on the port, performs `fail ILLEGAL_OP`: only that byte leaves the
port and only `result` is written (R103, R265). -/
def Obligations.ReservedOpCodeFailsIllegalOp : Prop :=
  ∀ (s : State) (op : Byte) (rest : List Byte), s.pendingExpiries = [] ∨ s.nextTurn = .host →
    op.toNat ∉ [0x01, 0x02, 0x03, 0x04, 0x05, 0x06, 0x10, 0x11, 0x20, 0x21, 0x30, 0x31, 0x40, 0x41, 0x42, 0x50, 0x7F] →
    s.port = op :: rest →
    step s = .next { s with
      port := rest
      turns := s.turns.tail
      turnCount := if s.turns = [] then s.turnCount + 1 else s.turnCount
      result := { status := .illegalOp, data := .empty } }

/-- The timebase takes the pending expiry the scheduler chose, whatever waits on the port (R15, R207). -/
def Obligations.StepTakesTheChosenExpiry : Prop :=
  ∀ (s : State) (e : Byte), s.nextTurn = .expire e → s.expiryEnabled e = true →
    step s = exec (.dbExpire e) s.advance

/-- With no whole command on the port a pending expiry is taken, so it cannot wait for ever. Where the scheduler does
not choose one, it is the first by deadline and then by `seq` (R270's recommended order). MODEL'S CHOICE, log 6. -/
def Obligations.IdlePortLetsAPendingExpiryGo : Prop :=
  ∀ s : State, decodePort s.port = .incomplete → s.pendingExpiries ≠ [] →
    ∃ e, s.expiryEnabled e = true ∧ step s = exec (.dbExpire e) s.advance ∧
      (s.nextTurn = .host → ∀ e', s.expiryEnabled e' = true →
        (s.dbAt e.toNat).deadline < (s.dbAt e'.toNat).deadline ∨
          ((s.dbAt e.toNat).deadline = (s.dbAt e'.toNat).deadline ∧ (s.dbAt e.toNat).seq ≤ (s.dbAt e'.toNat).seq))

/-! ### Codec -/

/-- FRAME writes only `result`: the wire bytes of each of the three shapes (R120, with the layouts of R81 to R84), whatever
the payload (R121); an id that has none of the three forms of R83 is refused with INVALID_ID. -/
def Obligations.FrameBuildsTheWireBytes : Prop :=
  ∀ (s : State) (payload : List Byte),
    (∀ b : Byte, 0x80 ≤ b.toNat → b ≠ 0xF0#8 → b ≠ 0xF7#8 →
      exec (.frame (b.setWidth 32) payload) s =
        .next { s with result := { status := .ok, data := .bytes (b :: payload) } }) ∧
    (∀ t : Byte, 0x01 ≤ t.toNat → t.toNat ≤ 0x7F →
      exec (.frame (0x0000F000#32 ||| t.setWidth 32) payload) s =
        .next { s with result := { status := .ok, data := .bytes ([0xF0#8, t] ++ payload ++ [0xF7#8]) } }) ∧
    (∀ x : BitVec 14,
      exec (.frame (0x00F00000#32 ||| x.setWidth 32) payload) s =
        .next { s with result := { status := .ok,
                                   data := .bytes ([0xF0#8, 0x00#8, BitVec.ofNat 8 (x.toNat % 128), BitVec.ofNat 8 (x.toNat / 128)]
                                     ++ payload ++ [0xF7#8]) } }) ∧
    (∀ id : Word,
      (∀ b : Byte, 0x80 ≤ b.toNat → b ≠ 0xF0#8 → b ≠ 0xF7#8 → id ≠ b.setWidth 32) →
      (∀ t : Byte, 0x01 ≤ t.toNat → t.toNat ≤ 0x7F → id ≠ 0x0000F000#32 ||| t.setWidth 32) →
      (∀ x : BitVec 14, id ≠ 0x00F00000#32 ||| x.setWidth 32) →
      exec (.frame id payload) s = .next { s with result := { status := .invalidId, data := .empty } })

/-- The frame-then-parse law (R123), with its "if any of these conditions fails": a framed message parses back as
itself before any further bytes exactly when its payload is data bytes and, for a standard id, the id is recognised
and the payload has its length. -/
def Obligations.FrameThenParseGivesTheMessage : Prop :=
  ∀ (s t : State) (id : Word) (payload bytes rest : List Byte), s.cfg.wf = true →
    exec (.frame id payload) s = .next t → t.result = { status := .ok, data := .bytes bytes } →
    (exec (.parse (bytes ++ rest)) t =
        .next { t with result := { status := .ok, data := .verdict (.msg 0 bytes.length id payload) } } ↔
      (∀ b ∈ payload, b.toNat < 0x80) ∧
        (∀ b : Byte, id = b.setWidth 32 → 0x80 ≤ b.toNat →
          s.cfg.isStdId b = true ∧ payload.length = s.cfg.stdPayloadLen b))

/-- PARSE always completes, answers the verdict of `parse` and writes only `result`, its status naming the verdict (R124);
the verdict stays within the buffer and a MSG or MALFORMED one consumes at least one byte (R141). -/
def Obligations.ParseAnswersAVerdictWithinTheBuffer : Prop :=
  ∀ (s : State) (buf : List Byte),
    exec (.parse buf) s = .next { s with
      result := { status := (parse s.cfg buf).status, data := .verdict (parse s.cfg buf) } } ∧
    match parse s.cfg buf with
    | .msg k n _ _ => (parse s.cfg buf).status = .ok ∧ 1 ≤ n ∧ k + n ≤ buf.length
    | .needMore k => (parse s.cfg buf).status = .needMore ∧ k ≤ buf.length
    | .malformed k n => (parse s.cfg buf).status = .malformed ∧ 1 ≤ n ∧ k + n ≤ buf.length

/-- Leading noise is skipped and counted, and changes the verdict in nothing else (R125); the skip is the least there is:
it stops at the end of the buffer and at the first byte that is not noise. -/
def Obligations.ParseSkipsLeadingNoise : Prop :=
  ∀ (c : Config) (noise buf : List Byte),
    (∀ b ∈ noise, 0x80 ≤ b.toNat ∧ b ≠ 0xF0#8 ∧ b ≠ 0xF7#8 ∧ c.isStdId b = false) →
    parse c (noise ++ buf) =
      (match parse c buf with
      | .msg k n id p => .msg (noise.length + k) n id p
      | .needMore k => .needMore (noise.length + k)
      | .malformed k n => .malformed (noise.length + k) n) ∧
    (buf = [] → (parse c (noise ++ buf)).skip = noise.length) ∧
    (∀ b body, buf = b :: body → ¬ (0x80 ≤ b.toNat ∧ b ≠ 0xF0#8 ∧ b ≠ 0xF7#8 ∧ c.isStdId b = false) →
      (parse c (noise ++ buf)).skip = noise.length)

/-- Fewer than three bytes from a lead byte that is not noise, and not a complete standard message, wait for more
(R126). -/
def Obligations.ParseOfAShortBufferNeedsMore : Prop :=
  ∀ (c : Config) (b : Byte) (body : List Byte),
    ¬ (0x80 ≤ b.toNat ∧ b ≠ 0xF0#8 ∧ b ≠ 0xF7#8 ∧ c.isStdId b = false) →
    body.length + 1 < 3 → ¬ (c.isStdId b = true ∧ 1 + c.stdPayloadLen b ≤ body.length + 1) →
    parse c (b :: body) = .needMore 0

/-- A standard message of its full length is MSG when its payload is data bytes; the first status byte in the payload
ends it as malformed (R127). -/
def Obligations.ParseOfAStandardMessage : Prop :=
  ∀ (c : Config) (b : Byte) (payload rest : List Byte), c.wf = true → c.isStdId b = true →
    payload.length = c.stdPayloadLen b →
    ((∀ x ∈ payload, x.toNat < 0x80) →
      parse c (b :: payload ++ rest) = .msg 0 (1 + payload.length) (b.setWidth 32) payload) ∧
    (∀ pre x post, payload = pre ++ x :: post → (∀ y ∈ pre, y.toNat < 0x80) → 0x80 ≤ x.toNat →
      parse c (b :: payload ++ rest) = .malformed 0 (pre.length + 1))

/-- Sysex and extended sysex (R128): a terminated frame is its message, or malformed where the type byte or the
extended id is missing; a status byte cuts it and is left; without one it waits for more. -/
def Obligations.ParseOfASysexFrame : Prop :=
  ∀ (c : Config) (data rest : List Byte), c.wf = true → (∀ x ∈ data, x.toNat < 0x80) →
    (∀ t payload, data = t :: payload → t ≠ 0x00#8 →
      parse c (0xF0#8 :: data ++ 0xF7#8 :: rest) =
        .msg 0 (data.length + 2) (0x0000F000#32 ||| t.setWidth 32) payload) ∧
    (∀ lo hi payload, data = 0x00#8 :: lo :: hi :: payload →
      parse c (0xF0#8 :: data ++ 0xF7#8 :: rest) =
        .msg 0 (data.length + 2) (0x00F00000#32 ||| u32 (lo.toNat + 128 * hi.toNat)) payload) ∧
    (data = [] → 1 ≤ rest.length → parse c (0xF0#8 :: data ++ 0xF7#8 :: rest) = .malformed 0 2) ∧
    (data.head? = some 0x00#8 → data.length < 3 → 4 ≤ data.length + 2 + rest.length →
      parse c (0xF0#8 :: data ++ 0xF7#8 :: rest) = .malformed 0 (data.length + 2)) ∧
    (∀ x : Byte, 0x80 ≤ x.toNat → x ≠ 0xF7#8 → 3 ≤ data.length + 2 + rest.length →
      (data.head? = some 0x00#8 → 4 ≤ data.length + 2 + rest.length) →
      parse c (0xF0#8 :: data ++ x :: rest) = .malformed 0 (data.length + 1)) ∧
    parse c (0xF0#8 :: data) = .needMore 0 ∧
    (∀ x : Byte, parse c [0xF0#8, 0x00#8, x] = .needMore 0)

/-- A stray end marker or data byte at the head of three bytes or more is consumed on its own (R129). -/
def Obligations.ParseOfAStrayByteIsMalformed : Prop :=
  ∀ (c : Config) (b : Byte) (body : List Byte), c.wf = true → (b = 0xF7#8 ∨ b.toNat < 0x80) → 2 ≤ body.length →
    parse c (b :: body) = .malformed 0 1

/-- Appending bytes never changes a MSG or MALFORMED verdict, and never shortens the noise of a NEED_MORE one (R141):
a stream parsed as it arrives gives the same messages. -/
def Obligations.ParseIsStableUnderMoreBytes : Prop :=
  ∀ (c : Config) (buf more : List Byte), c.wf = true →
    (∀ k n id p, parse c buf = .msg k n id p → parse c (buf ++ more) = .msg k n id p) ∧
    (∀ k n, parse c buf = .malformed k n → parse c (buf ++ more) = .malformed k n) ∧
    (∀ k, parse c buf = .needMore k → k ≤ (parse c (buf ++ more)).skip)

/-- TO_DATA returns the minimal groups of the value, low group first (R88, R130), which are canonical and at most
five (R131, R132). -/
def Obligations.ToDataReturnsTheCanonicalGroups : Prop :=
  ∀ (s : State) (v : Word), ∃ p : List Byte,
    exec (.toData v) s = .next { s with result := { status := .ok, data := .payload p } } ∧
    (∀ i, i < p.length → (p.getD i 0).toNat = v.toNat / 2 ^ (7 * i) % 128) ∧
    1 ≤ p.length ∧ p.length ≤ 5 ∧ (∀ n, 1 ≤ n → (v.toNat < 2 ^ (7 * n) ↔ p.length ≤ n)) ∧
    (v ≠ 0#32 → p.getLast? ≠ some 0x00#8) ∧ (p.length = 5 → (p.getD 4 0).toNat ≤ 0x0F)

/-- TO_VALUE returns the sum of `p[i] * 2^(7i)` modulo 2^32 for every payload (R133, R134). -/
def Obligations.ToValueReturnsTheGroupSum : Prop :=
  ∀ (s : State) (p : List Byte),
    exec (.toValue p) s = .next { s with
      result := { status := .ok,
                  data := .number (u32 (((List.range p.length).map fun i => (p.getD i 0).toNat * 2 ^ (7 * i)).sum)) } }

/-- The round trips of R135: every value survives TO_DATA then TO_VALUE; a payload survives TO_VALUE then TO_DATA
exactly when it is canonical, of at most five bytes, and its fifth byte holds four bits. -/
def Obligations.ValueRoundTrips : Prop :=
  (∀ (s t : State) (v : Word) (p : List Byte), exec (.toData v) s = .next t →
    t.result.data = .payload p →
    exec (.toValue p) t = .next { t with result := { status := .ok, data := .number v } }) ∧
  (∀ (s t : State) (v : Word) (p : List Byte), exec (.toValue p) s = .next t → t.result.data = .number v →
    (exec (.toData v) t = .next { t with result := { status := .ok, data := .payload p } } ↔
      (∀ b ∈ p, b.toNat < 0x80) ∧ 1 ≤ p.length ∧ (p.getLast? = some 0x00#8 → p.length = 1) ∧ p.length ≤ 5 ∧
        (p.length = 5 → (p.getD 4 0).toNat ≤ 0x0F)))

/-- STR_TO_DATA gives each character two payload bytes, low seven bits first (R90, R136, R137). TO_STRING gives one
character for each whole pair, modulo 256, and drops an odd last byte (R138, R139). -/
def Obligations.StringsTakeTwoBytesACharacter : Prop :=
  (∀ (s : State) (str : List Byte), ∃ p : List Byte,
    exec (.strToData str) s = .next { s with result := { status := .ok, data := .payload p } } ∧
    p.length = 2 * str.length ∧
    ∀ j, j < str.length →
      (p.getD (2 * j) 0).toNat = (str.getD j 0).toNat % 128 ∧
        (p.getD (2 * j + 1) 0).toNat = (str.getD j 0).toNat / 128) ∧
  (∀ (s : State) (p : List Byte), ∃ str : List Byte,
    exec (.toString p) s = .next { s with result := { status := .ok, data := .str str } } ∧
    str.length = p.length / 2 ∧
    ∀ j, j < p.length / 2 →
      (str.getD j 0).toNat = ((p.getD (2 * j) 0).toNat + 128 * (p.getD (2 * j + 1) 0).toNat) % 256)

/-- The string round trips of R140. -/
def Obligations.StringRoundTrips : Prop :=
  (∀ (s t : State) (str p : List Byte), exec (.strToData str) s = .next t → t.result.data = .payload p →
    exec (.toString p) t = .next { t with result := { status := .ok, data := .str str } }) ∧
  (∀ (s t : State) (str p : List Byte), exec (.toString p) s = .next t → t.result.data = .str str →
    (exec (.strToData str) t = .next { t with result := { status := .ok, data := .payload p } } ↔
      p.length % 2 = 0 ∧ ∀ j, j < p.length / 2 → (p.getD (2 * j) 0).toNat < 0x80 ∧ (p.getD (2 * j + 1) 0).toNat ≤ 1))

/-! ### Receive framer -/

/-- RX_PUSH completes from every state (R160, R161): the byte is stored behind the bytes held, or, where the buffer is
full, alone behind a flush that is counted and logged. Nothing else changes. -/
def Obligations.RxPushStoresTheByte : Prop :=
  ∀ (s : State) (b : Byte),
    (s.cfg.rxCap ≠ some s.rxbuf.length →
      exec (.rxPush b) s = .next { s with
        rxbuf := s.rxbuf ++ [b]
        result := { status := .ok, data := .flushed 0 } }) ∧
    (s.cfg.wf = true → s.cfg.rxCap = some s.rxbuf.length →
      exec (.rxPush b) s = .next { s with
        rxbuf := [b]
        droppedCount := s.droppedCount + u32 s.rxbuf.length
        overflowCount := s.overflowCount + 1
        events := s.events ++ [.dropped (u32 s.rxbuf.length)]
        result := { status := .overflow, data := .flushed s.rxbuf.length } })

/-- RX_STEP applies the verdict on its buffer (R162): what leaves the buffer, what is counted, what is logged and what
is returned, for each verdict; nothing else changes. -/
def Obligations.RxStepAppliesTheVerdict : Prop :=
  ∀ s : State,
    (∀ k n id p, parse s.cfg s.rxbuf = .msg k n id p →
      exec .rxStep s = .next { s with
        rxbuf := s.rxbuf.drop (k + n)
        droppedCount := s.droppedCount + u32 k
        events := s.events ++ (if 0 < k then [.dropped (u32 k), .msg id p] else [.msg id p])
        result := { status := .ok, data := .message k id p } }) ∧
    (∀ k, parse s.cfg s.rxbuf = .needMore k →
      exec .rxStep s = .next { s with
        rxbuf := s.rxbuf.drop k
        droppedCount := s.droppedCount + u32 k
        events := s.events ++ (if 0 < k then [.dropped (u32 k)] else [])
        result := { status := .needMore, data := .dropped k } }) ∧
    (∀ k n, parse s.cfg s.rxbuf = .malformed k n →
      exec .rxStep s = .next { s with
        rxbuf := s.rxbuf.drop (k + n)
        droppedCount := s.droppedCount + u32 (k + n)
        events := s.events ++ [.dropped (u32 (k + n))]
        result := { status := .malformed, data := .dropped (k + n) } })

/-- Progress of RX_STEP, and the end of a drain: at least one RX_STEP and at most one more than the bytes held (R163). -/
def Obligations.RxStepsMakeProgress : Prop :=
  (∀ s t : State, exec .rxStep s = .next t →
    (t.result.status = .ok ∨ t.result.status = .malformed → t.rxbuf.length < s.rxbuf.length) ∧
    (∀ n, t.result = { status := .needMore, data := .dropped n } → t.rxbuf.length + n = s.rxbuf.length) ∧
    (t.result = { status := .needMore, data := .dropped 0 } → t = { s with result := t.result })) ∧
  (∀ s : State, ∃ n t, 0 < n ∧ n ≤ s.rxbuf.length + 1 ∧ runOps (rxSteps n) s = .next t ∧
    t.result = { status := .needMore, data := .dropped 0 })

/-- Split-independence (R165): two ways of pushing the same bytes with RX_STEPs anywhere between them, each without
overflow and each drained at the end, give the same MSG events in the same order, the same `dropped_count` and the
same bytes left. -/
def Obligations.MessagesDoNotDependOnTheSplit : Prop :=
  ∀ (s t₁ t₂ : State) (ops₁ ops₂ : List Instr) (n₁ n₂ : Nat), s.cfg.wf = true →
    ops₁.all isRxOp = true → ops₂.all isRxOp = true → pushedBytes ops₁ = pushedBytes ops₂ →
    NoOverflow ops₁ s → NoOverflow ops₂ s →
    runOps (ops₁ ++ rxSteps n₁) s = .next t₁ → t₁.result = { status := .needMore, data := .dropped 0 } → 0 < n₁ →
    runOps (ops₂ ++ rxSteps n₂) s = .next t₂ → t₂.result = { status := .needMore, data := .dropped 0 } → 0 < n₂ →
    msgEvents t₁.events = msgEvents t₂.events ∧ t₁.droppedCount = t₂.droppedCount ∧ t₁.rxbuf = t₂.rxbuf

/-! ### Pins and time -/

/-- A PIN_CHANGE of a pin that does not exist is refused, and one that repeats the stored state changes nothing but
`result` (R180, R181). -/
def Obligations.PinChangeWithoutAChange : Prop :=
  ∀ (s : State) (p : Byte) (v : Word),
    (s.cfg.nPins ≤ p.toNat →
      exec (.pinChange p v) s = .next { s with result := { status := .outOfRange, data := .empty } }) ∧
    (p.toNat < s.cfg.nPins → s.pinValue p.toNat = some v →
      exec (.pinChange p v) s = .next { s with result := { status := .ok, data := .empty } })

/-- A PIN_CHANGE with a new state completes (R180, R204, R210): the state is stored, every debounce entry on the pin is
(re)armed with the deadline `now + delay`, every other debounce entry and pin is as before, and but for the encoder
entries and their events nothing else changes. -/
def Obligations.PinChangeArmsTheDebounceEntries : Prop :=
  ∀ (s : State) (p : Byte) (v : Word), s.Inv → p.toNat < s.cfg.nPins → s.pinValue p.toNat ≠ some v →
    ∃ t, exec (.pinChange p v) s = .next t ∧
      t = { s with result := { status := .ok, data := .empty }, pinState := t.pinState, db := t.db, enc := t.enc,
                   events := t.events } ∧
      (∀ q, t.pinValue q = if q = p.toNat then some v else s.pinValue q) ∧
      (∀ e, t.dbAt e =
        if (s.dbAt e).valid = true ∧ (s.dbAt e).pin = p.toNat then
          { s.dbAt e with armed := true, deadline := s.now + (s.dbAt e).delay.toNat }
        else s.dbAt e)

/-- What a changed pin does to an encoder entry (R233 to R235, R237, R239): only one whose pin1 it is reacts. pin2 is
sampled; a first phase is held, a second equal one counts one detent modulo 2^32, an opposite one returns to
neutral. That the phase is clockwise exactly when the levels differ is R235's convention, which the spec marks as general
knowledge (PRESUMED, log 13). -/
def Obligations.PinChangeMovesTheEncoders : Prop :=
  ∀ (s t : State) (p : Byte) (v : Word), s.Inv → s.pinValue p.toNat ≠ some v →
    exec (.pinChange p v) s = .next t → t.result.status = .ok →
    ∀ e, ((s.encAt e).valid = false ∨ (s.encAt e).pin1 ≠ p.toNat → t.encAt e = s.encAt e) ∧
      ((s.encAt e).valid = true → (s.encAt e).pin1 = p.toNat →
        ∃ (w : Word) (d : Phase), s.pinValue (s.encAt e).pin2 = some w ∧
          (d = .cw ↔ ¬ (v = 0#32 ↔ w = 0#32)) ∧
          ((s.encAt e).step = none → t.encAt e = { s.encAt e with step := some d }) ∧
          ((s.encAt e).step = some d → t.encAt e =
            { s.encAt e with step := none, count := (s.encAt e).count + (if d = .cw then 1 else -1) }) ∧
          (∀ d', d' ≠ d → (s.encAt e).step = some d' → t.encAt e = { s.encAt e with step := none }))

/-- The events of a PIN_CHANGE (R182, R240, R269): the encoders on the pin in ascending `seq`, each that confirms a
detent with its new count and then its direction; nothing else. Which relation of the levels logs ENC_CW and which ENC_CCW
is R235's convention, which the spec marks as general knowledge (PRESUMED, log 13). -/
def Obligations.PinChangeEventsComeInSubscriptionOrder : Prop :=
  ∀ (s t : State) (p : Byte) (v : Word), s.Inv → s.pinValue p.toNat ≠ some v →
    exec (.pinChange p v) s = .next t → t.result.status = .ok →
    ∃ slots : List Nat,
      slots.Pairwise (fun a b => (s.encAt a).seq < (s.encAt b).seq) ∧
      (∀ e, e ∈ slots ↔ (s.encAt e).valid = true ∧ (s.encAt e).pin1 = p.toNat) ∧
      t.events = s.events ++ slots.flatMap fun e =>
        match s.pinValue (s.encAt e).pin2 with
        | none => []
        | some w =>
          if (v = 0#32 ↔ w = 0#32) then
            if (s.encAt e).step = some .ccw then
              [.encCount (BitVec.ofNat 8 e) ((s.encAt e).count - 1), .encCcw (BitVec.ofNat 8 e)] else []
          else
            if (s.encAt e).step = some .cw then
              [.encCount (BitVec.ofNat 8 e) ((s.encAt e).count + 1), .encCw (BitVec.ofNat 8 e)] else []

/-- TICK advances `now` by one and writes nothing else but `result` (R183). -/
def Obligations.TickAdvancesNow : Prop :=
  ∀ s : State, exec .tick s = .next { s with now := s.now + 1, result := { status := .ok, data := .empty } }

/-! ### Debounce filter -/

/-- DB_CREATE (R200): its refusals in the order of R264; otherwise a live, unarmed entry with nothing published and the
next `seq`, and nothing else but `result` written. -/
def Obligations.DbCreateMakesAnEntryOrRefuses : Prop :=
  ∀ (s : State) (e pin : Byte) (delay : Word), s.db.length = s.cfg.nDb →
    (s.cfg.nDb ≤ e.toNat ∨ s.cfg.nPins ≤ pin.toNat →
      exec (.dbCreate e pin delay) s = .next { s with result := { status := .outOfRange, data := .empty } }) ∧
    (e.toNat < s.cfg.nDb → pin.toNat < s.cfg.nPins → (s.dbAt e.toNat).valid = true →
      exec (.dbCreate e pin delay) s = .next { s with result := { status := .entryBusy, data := .empty } }) ∧
    (e.toNat < s.cfg.nDb → pin.toNat < s.cfg.nPins → (s.dbAt e.toNat).valid = false →
      ∃ t, exec (.dbCreate e pin delay) s = .next t ∧
        t = { s with db := t.db, nextSeq := s.nextSeq + 1, result := { status := .ok, data := .empty } } ∧
        ∀ j, t.dbAt j = if j = e.toNat then
            { valid := true, pin := pin.toNat, delay := delay, last := none, armed := false, deadline := 0,
              seq := s.nextSeq }
          else s.dbAt j)

/-- DB_REMOVE frees a live slot and writes nothing else but `result`; a slot out of range or free is refused
(R202). -/
def Obligations.DbRemoveFreesTheSlot : Prop :=
  ∀ (s : State) (e : Byte),
    (s.cfg.nDb ≤ e.toNat →
      exec (.dbRemove e) s = .next { s with result := { status := .outOfRange, data := .empty } }) ∧
    (e.toNat < s.cfg.nDb → (s.dbAt e.toNat).valid = false →
      exec (.dbRemove e) s = .next { s with result := { status := .entryFree, data := .empty } }) ∧
    (e.toNat < s.cfg.nDb → (s.dbAt e.toNat).valid = true →
      ∃ t, exec (.dbRemove e) s = .next t ∧
        t = { s with db := t.db, result := { status := .ok, data := .empty } } ∧
        ∀ j, t.dbAt j = if j = e.toNat then
            { valid := false, pin := 0, delay := 0, last := none, armed := false, deadline := 0, seq := 0 }
          else s.dbAt j)

/-- Once DB_REMOVE returned OK, no expiry of the entry is enabled and no PIN_CHANGE reaches it (R203). -/
def Obligations.RemovedEntryStaysSilent : Prop :=
  ∀ (s t : State) (e : Byte), exec (.dbRemove e) s = .next t → t.result.status = .ok →
    t.expiryEnabled e = false ∧
      ∀ (p : Byte) (v : Word) (u : State), exec (.pinChange p v) t = .next u → u.dbAt e.toNat = t.dbAt e.toNat

/-- DB_EXPIRE (R206), where it is enabled on a pin whose state is known: the delay is spent; a state that differs from the
one last published is published and remembered, an equal one is not; `result` is not written, and nothing else changes.
Where it is not enabled there is no such step. -/
def Obligations.DbExpirePublishesANewState : Prop :=
  ∀ (s : State) (e : Byte),
    (∀ cur : Word, (s.dbAt e.toNat).valid = true → (s.dbAt e.toNat).armed = true →
      (s.dbAt e.toNat).deadline ≤ s.now → s.pinValue (s.dbAt e.toNat).pin = some cur →
      ∃ t, exec (.dbExpire e) s = .next t ∧
        t = { s with db := t.db, events := t.events } ∧
        t.events = s.events ++ (if (s.dbAt e.toNat).last = some cur then [] else [.dbPublish e cur]) ∧
        ∀ j, t.dbAt j = if j = e.toNat then { s.dbAt j with armed := false, last := some cur } else s.dbAt j) ∧
    ((s.dbAt e.toNat).valid = false ∨ (s.dbAt e.toNat).armed = false ∨ s.now < (s.dbAt e.toNat).deadline →
      ∀ t, exec (.dbExpire e) s ≠ .next t)

/-- MODEL'S CHOICE (log 7): asked for where R206 does not enable it, DB_EXPIRE is refused by name. `step` never asks. -/
def Obligations.DbExpireIsRefusedWhereNotEnabled : Prop :=
  ∀ (s : State) (e : Byte),
    (s.dbAt e.toNat).valid = false ∨ (s.dbAt e.toNat).armed = false ∨ s.now < (s.dbAt e.toNat).deadline →
    exec (.dbExpire e) s = .refused (.expiryNotEnabled e)

/-- One publish per quiet period (R205, R208), and none of a free slot (R202, R203): in a run in which the watched pin does not change and the slot is not created
anew, an entry publishes nothing unless a delay was in flight at its start, and then at most once: the pin's state, if
it differs from the one last published. A slot that is free at the start (one just removed, R202) publishes nothing in any
run in which it is not created anew, whatever the pins do. Every other operation and expiry may stand in the run. -/
def Obligations.QuietPeriodPublishesAtMostOnce : Prop :=
  ∀ (ops : List Instr) (s t : State) (e : Byte), (∀ i ∈ ops, ∀ pin delay, i ≠ .dbCreate e pin delay) →
    runOps ops s = .next t →
    ((s.dbAt e.toNat).valid = false → dbEventsOf e t.events = dbEventsOf e s.events) ∧
    ((s.dbAt e.toNat).valid = true →
      (∀ i ∈ ops, ∀ p v, i = .pinChange p v → p.toNat ≠ (s.dbAt e.toNat).pin) →
      dbEventsOf e t.events = dbEventsOf e s.events ∨
        ((s.dbAt e.toNat).armed = true ∧ ∃ cur, s.pinValue (s.dbAt e.toNat).pin = some cur ∧
          (s.dbAt e.toNat).last ≠ some cur ∧ dbEventsOf e t.events = dbEventsOf e s.events ++ [.dbPublish e cur]))

/-- A change of the watched pin (re)arms the entry so that its expiry is enabled after exactly `delay` ticks and not
before, whatever it was armed for (R204 to R206, R209). -/
def Obligations.ChangeThenDelayTicksEnablesTheExpiry : Prop :=
  ∀ (s t : State) (p e : Byte) (v : Word) (n : Nat), s.Inv → p.toNat < s.cfg.nPins →
    s.pinValue p.toNat ≠ some v → (s.dbAt e.toNat).valid = true → (s.dbAt e.toNat).pin = p.toNat →
    runOps (.pinChange p v :: waitTicks n) s = .next t →
    (t.expiryEnabled e = true ↔ (s.dbAt e.toNat).delay.toNat ≤ n)

/-- An entry is armed only by a change of its own pin: every other step leaves a live entry as armed or unarmed as it
was, or disarms it (R30, R204, R210). -/
def Obligations.OnlyItsPinArmsAnEntry : Prop :=
  ∀ (i : Instr) (s t : State) (e : Nat), exec i s = .next t → (t.dbAt e).armed = true →
    ((s.dbAt e).armed = true ∧ (t.dbAt e).deadline = (s.dbAt e).deadline) ∨
      ∃ (p : Byte) (v : Word), i = .pinChange p v ∧ (s.dbAt e).valid = true ∧ (s.dbAt e).pin = p.toNat ∧
        s.pinValue p.toNat ≠ some v ∧ (t.dbAt e).deadline = s.now + (s.dbAt e).delay.toNat

/-- Two pending expiries of different entries may be taken in either order: the states agree in everything but the
order of their events (R270). -/
def Obligations.PendingExpiriesCommute : Prop :=
  ∀ (s : State) (a b : Byte), s.Inv → a ≠ b → s.expiryEnabled a = true → s.expiryEnabled b = true →
    ∃ (t u : State) (ea eb : List Event),
      runOps [.dbExpire a, .dbExpire b] s = .next t ∧ runOps [.dbExpire b, .dbExpire a] s = .next u ∧
      t = { u with events := t.events } ∧ t.events = s.events ++ ea ++ eb ∧ u.events = s.events ++ eb ++ ea

/-! ### Quadrature decoder -/

/-- ENC_CREATE (R230): its refusals in the order of R264; otherwise a live neutral entry with count 0 and the next `seq`,
and nothing else but `result` written. -/
def Obligations.EncCreateMakesAnEntryOrRefuses : Prop :=
  ∀ (s : State) (e pin1 pin2 : Byte), s.enc.length = s.cfg.nEnc →
    (s.cfg.nEnc ≤ e.toNat ∨ s.cfg.nPins ≤ pin1.toNat ∨ s.cfg.nPins ≤ pin2.toNat →
      exec (.encCreate e pin1 pin2) s = .next { s with result := { status := .outOfRange, data := .empty } }) ∧
    (e.toNat < s.cfg.nEnc → pin1.toNat < s.cfg.nPins → pin2.toNat < s.cfg.nPins →
      ((s.encAt e.toNat).valid = true →
        exec (.encCreate e pin1 pin2) s = .next { s with result := { status := .entryBusy, data := .empty } }) ∧
      ((s.encAt e.toNat).valid = false → pin1 = pin2 →
        exec (.encCreate e pin1 pin2) s = .next { s with result := { status := .samePin, data := .empty } }) ∧
      ((s.encAt e.toNat).valid = false → pin1 ≠ pin2 →
        s.pinValue pin1.toNat = none ∨ s.pinValue pin2.toNat = none →
        exec (.encCreate e pin1 pin2) s = .next { s with result := { status := .pinUnknown, data := .empty } }) ∧
      ((s.encAt e.toNat).valid = false → pin1 ≠ pin2 →
        s.pinValue pin1.toNat ≠ none → s.pinValue pin2.toNat ≠ none →
        ∃ t, exec (.encCreate e pin1 pin2) s = .next t ∧
          t = { s with enc := t.enc, nextSeq := s.nextSeq + 1, result := { status := .ok, data := .empty } } ∧
          ∀ j, t.encAt j = if j = e.toNat then
              { valid := true, pin1 := pin1.toNat, pin2 := pin2.toNat, step := none, count := 0, seq := s.nextSeq }
            else s.encAt j))

/-- ENC_REMOVE frees a live slot and writes nothing else but `result`; a slot out of range or free is refused
(R232). -/
def Obligations.EncRemoveFreesTheSlot : Prop :=
  ∀ (s : State) (e : Byte),
    (s.cfg.nEnc ≤ e.toNat →
      exec (.encRemove e) s = .next { s with result := { status := .outOfRange, data := .empty } }) ∧
    (e.toNat < s.cfg.nEnc → (s.encAt e.toNat).valid = false →
      exec (.encRemove e) s = .next { s with result := { status := .entryFree, data := .empty } }) ∧
    (e.toNat < s.cfg.nEnc → (s.encAt e.toNat).valid = true →
      ∃ t, exec (.encRemove e) s = .next t ∧
        t = { s with enc := t.enc, result := { status := .ok, data := .empty } } ∧
        ∀ j, t.encAt j = if j = e.toNat then
            { valid := false, pin1 := 0, pin2 := 0, step := none, count := 0, seq := 0 }
          else s.encAt j)

/-- ENC_READ returns the count of a live slot and writes nothing but `result`; a slot out of range or free is refused
(R238). -/
def Obligations.EncReadReturnsTheCount : Prop :=
  ∀ (s : State) (e : Byte),
    (s.cfg.nEnc ≤ e.toNat →
      exec (.encRead e) s = .next { s with result := { status := .outOfRange, data := .empty } }) ∧
    (e.toNat < s.cfg.nEnc → (s.encAt e.toNat).valid = false →
      exec (.encRead e) s = .next { s with result := { status := .entryFree, data := .empty } }) ∧
    (e.toNat < s.cfg.nEnc → (s.encAt e.toNat).valid = true →
      exec (.encRead e) s = .next { s with result := { status := .ok, data := .count (s.encAt e.toNat).count } })

/-- The count of an entry that stays live changes only in a PIN_CHANGE of its pin1, and then by exactly one modulo 2^32,
with its two events logged (from R233, R237, R240). That each confirmed detent does change it is
PinChangeMovesTheEncoders. -/
def Obligations.CountChangesOnlyByADetent : Prop :=
  ∀ (i : Instr) (s t : State) (e : Byte), s.Inv → exec i s = .next t →
    (s.encAt e.toNat).valid = true → (t.encAt e.toNat).valid = true →
    (t.encAt e.toNat).count ≠ (s.encAt e.toNat).count →
    ∃ (p : Byte) (v : Word), i = .pinChange p v ∧ p.toNat = (s.encAt e.toNat).pin1 ∧
      (((t.encAt e.toNat).count = (s.encAt e.toNat).count + 1 ∧
          encEventsOf e t.events = encEventsOf e s.events ++ [.encCount e (t.encAt e.toNat).count, .encCw e]) ∨
        ((t.encAt e.toNat).count = (s.encAt e.toNat).count - 1 ∧
          encEventsOf e t.events = encEventsOf e s.events ++ [.encCount e (t.encAt e.toNat).count, .encCcw e]))

/-- The worked outcomes of R241, from both pins low and a neutral accumulator: a clean clockwise cycle counts one and
logs it once; a bounce of pin1 logs nothing and leaves the entry as it was. That this cycle is the clockwise one is R235's
convention, which the spec marks as general knowledge (PRESUMED, log 13). -/
def Obligations.CleanCycleCountsOneAndABounceNone : Prop :=
  ∀ (s : State) (e p q : Byte), s.Inv → (s.encAt e.toNat).valid = true → (s.encAt e.toNat).pin1 = p.toNat →
    (s.encAt e.toNat).pin2 = q.toNat → (s.encAt e.toNat).step = none →
    s.pinValue p.toNat = some 0 → s.pinValue q.toNat = some 0 →
    (∃ t, runOps [.pinChange p 1, .pinChange q 1, .pinChange p 0, .pinChange q 0] s = .next t ∧
      t.encAt e.toNat = { s.encAt e.toNat with count := (s.encAt e.toNat).count + 1 } ∧
      encEventsOf e t.events = encEventsOf e s.events ++ [.encCount e ((s.encAt e.toNat).count + 1), .encCw e]) ∧
    (∃ t, runOps [.pinChange p 1, .pinChange p 0] s = .next t ∧ t.encAt e.toNat = s.encAt e.toNat ∧
      encEventsOf e t.events = encEventsOf e s.events)

/-! ### Registers and reset -/

/-- READ_REG returns the register's value and writes nothing but `result`; a reserved number is refused (R294, R37). For a
finite `RX_CAP` of 2^32 or more R37 states no value: register 0x08 then reads some value, left free (log 19). -/
def Obligations.ReadRegReturnsTheRegister : Prop :=
  ∀ s : State,
    (∀ r v, (r, v) ∈ [(0x00#8, u32 s.rxbuf.length), (0x01#8, s.droppedCount), (0x02#8, s.overflowCount),
        (0x03#8, u32 (s.now % 2 ^ 32)), (0x04#8, u32 (s.now / 2 ^ 32 % 2 ^ 32)), (0x05#8, u32 s.cfg.nPins),
        (0x06#8, u32 s.cfg.nDb), (0x07#8, u32 s.cfg.nEnc),
        (0x09#8, u32 (s.nextSeq % 2 ^ 32))] →
      exec (.readReg r) s = .next { s with result := { status := .ok, data := .value v } }) ∧
    (s.cfg.rxCap = none →
      exec (.readReg 0x08) s = .next { s with result := { status := .ok, data := .value 0 } }) ∧
    (∀ c, s.cfg.rxCap = some c → c < 2 ^ 32 →
      exec (.readReg 0x08) s = .next { s with result := { status := .ok, data := .value (u32 c) } }) ∧
    (∀ c, s.cfg.rxCap = some c → 2 ^ 32 ≤ c →
      ∃ v, exec (.readReg 0x08) s = .next { s with result := { status := .ok, data := .value v } }) ∧
    (∀ r : Byte, 0x0A ≤ r.toNat →
      exec (.readReg r) s = .next { s with result := { status := .outOfRange, data := .empty } })

/-- RESET gives every element of the block its reset value and keeps the event log (R290, R292); no expiry is enabled
after it (R293). What is not the block's own stays: the parameters, and the model's port and scheduler fields
(log 10). -/
def Obligations.ResetRestoresEveryElement : Prop :=
  ∀ s : State, ∃ t, exec .reset s = .next t ∧ (∀ e, t.expiryEnabled e = false) ∧
    t = { s with
      result := { status := .ok, data := .empty }
      rxbuf := []
      droppedCount := 0
      overflowCount := 0
      pinState := List.replicate s.cfg.nPins none
      now := 0
      nextSeq := 0
      db := List.replicate s.cfg.nDb
        { valid := false, pin := 0, delay := 0, last := none, armed := false, deadline := 0, seq := 0 }
      enc := List.replicate s.cfg.nEnc { valid := false, pin1 := 0, pin2 := 0, step := none, count := 0, seq := 0 } }

/-- Power-on is the state RESET produces, with no events (R291): RESET leaves the power-on state as it is, and takes any
state to it but for its event log. The port and the scheduler fields are the model's own (log 3, log 5): RESET keeps them,
and the statement holds for every value of theirs. -/
def Obligations.PowerOnIsTheResetStateWithoutEvents : Prop :=
  (∀ (c : Config) (port : List Byte) (turns : List Turn) (n : Nat),
    exec .reset { State.powerOn c with port := port, turns := turns, turnCount := n } =
      .next { State.powerOn c with port := port, turns := turns, turnCount := n } ∧ (State.powerOn c).events = []) ∧
  ∀ s : State, ∃ t, exec .reset s = .next t ∧ { t with events := [] } =
    { State.powerOn s.cfg with port := s.port, turns := s.turns, turnCount := s.turnCount }

/-! ### Whole machine -/

/-- The invariant holds at power-on of every legal choice of parameters, so at reset. -/
def Obligations.PowerOnHoldsTheInvariant : Prop :=
  (∀ c : Config, c.wf = true → (State.powerOn c).Inv) ∧ State.reset.Inv

/-- Every step keeps the invariant (R30, R32, R23, R25): from any state that has it, whatever the host sent and whatever
the scheduler chooses. -/
def Obligations.StepKeepsTheInvariant : Prop :=
  ∀ s t : State, s.Inv → step s = .next t → t.Inv

/-- From a state with the invariant a step always answers a next state: no fault, no refusal, for any bytes on the port
and any choice of the scheduler (R260). -/
def Obligations.StepNeverStops : Prop :=
  ∀ s : State, s.Inv → ∃ t, step s = .next t

/-- A refused operation writes its status, leaves the data empty and changes nothing else (R11, R260, R263). -/
def Obligations.RefusedOperationWritesOnlyTheStatus : Prop :=
  ∀ (i : Instr) (s t : State), i.onPort = true → exec i s = .next t → t.result.status.isRefusal = true →
    t = { s with result := { status := t.result.status, data := .empty } }

/-- The codec operations, ENC_READ and READ_REG have no side effect: apart from `result` the state is the same, and doing
one again gives the same result (R71). -/
def Obligations.ReadingOperationsHaveNoSideEffect : Prop :=
  ∀ (i : Instr) (s t : State),
    (match i with
      | .frame _ _ | .parse _ | .toData _ | .toValue _ | .strToData _ | .toString _ | .encRead _ | .readReg _ => True
      | _ => False) →
    exec i s = .next t → t = { s with result := t.result } ∧ exec i t = .next t

/-- Who writes what (R20 to R35, R61), for each element of 10_state.md: the pin states only PIN_CHANGE, `now` only TICK,
`next_seq` only the two creates, the receive buffer and its counters only the framer, the debounce file only DB_CREATE,
DB_REMOVE, DB_EXPIRE and PIN_CHANGE, the encoder file only ENC_CREATE, ENC_REMOVE and PIN_CHANGE, and RESET all of these;
the event log only RX_PUSH, RX_STEP, PIN_CHANGE and DB_EXPIRE; `result` every operation but DB_EXPIRE; the parameters no
operation. That no operation, RESET included, writes the port and scheduler fields is the model's choice: they are its own
(log 3, log 5, log 10). -/
def Obligations.EachElementHasItsWriters : Prop :=
  ∀ (i : Instr) (s t : State), exec i s = .next t →
    t.cfg = s.cfg ∧ t.port = s.port ∧ t.turns = s.turns ∧ t.turnCount = s.turnCount ∧
    (t.events ≠ s.events → i = .rxStep ∨ (∃ b, i = .rxPush b) ∨ (∃ p v, i = .pinChange p v) ∨ ∃ e, i = .dbExpire e) ∧
    (i = .reset ∨
      ((t.pinState ≠ s.pinState → ∃ p v, i = .pinChange p v) ∧
       (t.now ≠ s.now → i = .tick) ∧
       (t.nextSeq ≠ s.nextSeq → (∃ e p d, i = .dbCreate e p d) ∨ (∃ e p q, i = .encCreate e p q)) ∧
       (t.rxbuf ≠ s.rxbuf ∨ t.droppedCount ≠ s.droppedCount → i = .rxStep ∨ ∃ b, i = .rxPush b) ∧
       (t.overflowCount ≠ s.overflowCount → ∃ b, i = .rxPush b) ∧
       (t.db ≠ s.db → (∃ e p d, i = .dbCreate e p d) ∨ (∃ e, i = .dbRemove e) ∨ (∃ e, i = .dbExpire e) ∨
         ∃ p v, i = .pinChange p v) ∧
       (t.enc ≠ s.enc → (∃ e p q, i = .encCreate e p q) ∨ (∃ e, i = .encRemove e) ∨ ∃ p v, i = .pinChange p v) ∧
       (t.result ≠ s.result → ∀ e, i ≠ .dbExpire e)))

/-- The event log only grows, and each kind of event comes from its source (R35, R266): MSG from RX_STEP, DROPPED from the
framer, DB_PUBLISH from the entry's own expiry, the encoder events from a PIN_CHANGE of the entry's pin1. -/
def Obligations.EventsComeFromTheirSources : Prop :=
  ∀ (i : Instr) (s t : State), s.Inv → exec i s = .next t →
    ∃ new, t.events = s.events ++ new ∧ ∀ ev ∈ new,
      match ev with
      | .msg _ _ => i = .rxStep
      | .dropped _ => i = .rxStep ∨ ∃ b, i = .rxPush b
      | .dbPublish e _ => i = .dbExpire e
      | .encCount e _ | .encCw e | .encCcw e =>
        ∃ p v, i = .pinChange p v ∧ (s.encAt e.toNat).valid = true ∧ (s.encAt e.toNat).pin1 = p.toNat

/-- The receive buffer is a queue (R61): bytes enter only at its tail, by RX_PUSH, and leave only at its head. -/
def Obligations.ReceiveBufferIsAQueue : Prop :=
  ∀ (i : Instr) (s t : State), exec i s = .next t →
    ∃ n, t.rxbuf = s.rxbuf.drop n ++ (match i with | .rxPush b => [b] | _ => [])

/-- Each status code comes only from the operations of R104's table. -/
def Obligations.StatusCodesComeFromTheirOperations : Prop :=
  ∀ (i : Instr) (s t : State), i.onPort = true → exec i s = .next t →
    match t.result.status with
    | .ok => True
    | .needMore | .malformed => i = .rxStep ∨ ∃ buf, i = .parse buf
    | .invalidId => ∃ id payload, i = .frame id payload
    | .outOfRange =>
      (∃ p v, i = .pinChange p v) ∨ (∃ e p d, i = .dbCreate e p d) ∨ (∃ e, i = .dbRemove e) ∨
        (∃ e p q, i = .encCreate e p q) ∨ (∃ e, i = .encRemove e) ∨ (∃ e, i = .encRead e) ∨ (∃ r, i = .readReg r)
    | .entryBusy => (∃ e p d, i = .dbCreate e p d) ∨ (∃ e p q, i = .encCreate e p q)
    | .entryFree => (∃ e, i = .dbRemove e) ∨ (∃ e, i = .encRemove e) ∨ (∃ e, i = .encRead e)
    | .samePin | .pinUnknown => ∃ e p q, i = .encCreate e p q
    | .overflow => ∃ b, i = .rxPush b
    | .illegalOp => False
end

