-- ==== Sys2Proof/Laws/Decode.lean ====
section
/-! SUPPORT. The operand readers against the operand writers, one lemma each way. -/

namespace Sys2Proof

/-- The bytes of a 32-bit scalar read back as it (R68). -/
theorem readU32_bytesOfU32 (v : Word) (r : List Byte) : readU32 (bytesOfU32 v ++ r) = some (v, r) := by
  have h : v.extractLsb' 24 8 ++ v.extractLsb' 16 8 ++ v.extractLsb' 8 8 ++ v.extractLsb' 0 8 = v := by
    apply BitVec.eq_of_getLsbD_eq
    intro i hi
    simp only [BitVec.getLsbD_append, BitVec.getLsbD_extractLsb']
    split
    · simp
      omega
    · split
      · have : 8 + (i - 8) = i := by omega
        simp [this]; omega
      · split
        · have : 16 + (i - 8 - 8) = i := by omega
          simp [this]; omega
        · have : 24 + (i - 8 - 8 - 8) = i := by omega
          simp [this]; omega
  simp only [bytesOfU32, List.cons_append, List.nil_append, readU32, h]

/-- Only those bytes read as it. -/
theorem readU32_eq (bs r : List Byte) (v : Word) (h : readU32 bs = some (v, r)) : bs = bytesOfU32 v ++ r := by
  match bs with
  | b0 :: b1 :: b2 :: b3 :: l =>
    simp only [readU32, Option.some.injEq, Prod.mk.injEq] at h
    obtain ⟨rfl, rfl⟩ := h
    have e : ∀ k (b : Byte), (∀ i, i < 8 → (b3 ++ b2 ++ b1 ++ b0).getLsbD (k + i) = b.getLsbD i) →
        (b3 ++ b2 ++ b1 ++ b0).extractLsb' k 8 = b := by
      intro k b hb
      apply BitVec.eq_of_getLsbD_eq
      intro i hi
      simp only [BitVec.getLsbD_extractLsb', hi, hb i hi, decide_true, Bool.true_and]
    have e0 := e 0 b0 fun i hi => by
      simp only [BitVec.getLsbD_append, Nat.zero_add, hi, if_true]
    have e1 := e 8 b1 fun i hi => by
      simp only [BitVec.getLsbD_append, if_neg (show ¬ 8 + i < 8 by omega), Nat.add_sub_cancel_left, hi, if_true]
    have e2 := e 16 b2 fun i hi => by
      simp only [BitVec.getLsbD_append, if_neg (show ¬ 16 + i < 8 by omega), if_neg (show ¬ 16 + i - 8 < 8 by omega),
        show 16 + i - 8 - 8 = i by omega, hi, if_true]
    have e3 := e 24 b3 fun i hi => by
      simp only [BitVec.getLsbD_append, if_neg (show ¬ 24 + i < 8 by omega), if_neg (show ¬ 24 + i - 8 < 8 by omega),
        if_neg (show ¬ 24 + i - 8 - 8 < 8 by omega), show 24 + i - 8 - 8 - 8 = i by omega]
    simp only [bytesOfU32, List.cons_append, List.nil_append, e0, e1, e2, e3]
  | [] => simp [readU32] at h
  | [_] => simp [readU32] at h
  | [_, _] => simp [readU32] at h
  | [_, _, _] => simp [readU32] at h

/-- The bytes of a list that fits read back as it (R101). -/
theorem readList_bytesOfList (l r : List Byte) (h : listFits l = true) : readList (bytesOfList l ++ r) = some (l, r) := by
  simp only [listFits, decide_eq_true_eq] at h
  simp only [bytesOfList, List.cons_append, readList, BitVec.toNat_ofNat]
  have hn : l.length % 2 ^ 8 + 256 * (l.length / 256 % 2 ^ 8) = l.length := by omega
  simp only [hn, List.length_append, Nat.le_add_right, if_true, List.take_left, List.drop_left]

/-- Only those bytes read as it, and it fits. -/
theorem readList_eq (bs l r : List Byte) (h : readList bs = some (l, r)) :
    listFits l = true ∧ bs = bytesOfList l ++ r := by
  match bs with
  | l0 :: l1 :: t =>
    simp only [readList] at h
    split at h
    · rename_i hn
      simp only [Option.some.injEq, Prod.mk.injEq] at h
      obtain ⟨rfl, rfl⟩ := h
      have h0 := l0.isLt
      have h1 := l1.isLt
      have hl : (t.take (l0.toNat + 256 * l1.toNat)).length = l0.toNat + 256 * l1.toNat := by simp; omega
      refine ⟨by simp only [listFits, hl, decide_eq_true_eq]; omega, ?_⟩
      simp only [bytesOfList, hl, List.cons_append, List.take_append_drop]
      congr 1
      · apply BitVec.eq_of_toNat_eq; simp; omega
      · congr 1
        apply BitVec.eq_of_toNat_eq; simp; omega
    · cases h
  | [] => simp [readList] at h
  | [_] => simp [readList] at h

end Sys2Proof
end

