-- ==== Sys2Proof/Laws/State.lean ====
section
/-! SUPPORT. What each update of the state does to each field: one lemma per field per update. -/

namespace Sys2Proof.Machine

/-! ### State.finish -/

@[simp] theorem State.finish_cfg (s : State) (st : Status) (d : ResultData) : (s.finish st d).cfg = s.cfg := rfl
@[simp] theorem State.finish_result (s : State) (st : Status) (d : ResultData) : (s.finish st d).result = { status := st, data := d } := rfl
@[simp] theorem State.finish_rxbuf (s : State) (st : Status) (d : ResultData) : (s.finish st d).rxbuf = s.rxbuf := rfl
@[simp] theorem State.finish_droppedCount (s : State) (st : Status) (d : ResultData) : (s.finish st d).droppedCount = s.droppedCount := rfl
@[simp] theorem State.finish_overflowCount (s : State) (st : Status) (d : ResultData) : (s.finish st d).overflowCount = s.overflowCount := rfl
@[simp] theorem State.finish_pinState (s : State) (st : Status) (d : ResultData) : (s.finish st d).pinState = s.pinState := rfl
@[simp] theorem State.finish_now (s : State) (st : Status) (d : ResultData) : (s.finish st d).now = s.now := rfl
@[simp] theorem State.finish_nextSeq (s : State) (st : Status) (d : ResultData) : (s.finish st d).nextSeq = s.nextSeq := rfl
@[simp] theorem State.finish_db (s : State) (st : Status) (d : ResultData) : (s.finish st d).db = s.db := rfl
@[simp] theorem State.finish_enc (s : State) (st : Status) (d : ResultData) : (s.finish st d).enc = s.enc := rfl
@[simp] theorem State.finish_events (s : State) (st : Status) (d : ResultData) : (s.finish st d).events = s.events := rfl
@[simp] theorem State.finish_port (s : State) (st : Status) (d : ResultData) : (s.finish st d).port = s.port := rfl
@[simp] theorem State.finish_turns (s : State) (st : Status) (d : ResultData) : (s.finish st d).turns = s.turns := rfl
@[simp] theorem State.finish_turnCount (s : State) (st : Status) (d : ResultData) : (s.finish st d).turnCount = s.turnCount := rfl

/-! ### State.done -/

@[simp] theorem State.done_cfg (s : State) : s.done.cfg = s.cfg := rfl
@[simp] theorem State.done_result (s : State) : s.done.result = { status := .ok, data := .empty } := rfl
@[simp] theorem State.done_rxbuf (s : State) : s.done.rxbuf = s.rxbuf := rfl
@[simp] theorem State.done_droppedCount (s : State) : s.done.droppedCount = s.droppedCount := rfl
@[simp] theorem State.done_overflowCount (s : State) : s.done.overflowCount = s.overflowCount := rfl
@[simp] theorem State.done_pinState (s : State) : s.done.pinState = s.pinState := rfl
@[simp] theorem State.done_now (s : State) : s.done.now = s.now := rfl
@[simp] theorem State.done_nextSeq (s : State) : s.done.nextSeq = s.nextSeq := rfl
@[simp] theorem State.done_db (s : State) : s.done.db = s.db := rfl
@[simp] theorem State.done_enc (s : State) : s.done.enc = s.enc := rfl
@[simp] theorem State.done_events (s : State) : s.done.events = s.events := rfl
@[simp] theorem State.done_port (s : State) : s.done.port = s.port := rfl
@[simp] theorem State.done_turns (s : State) : s.done.turns = s.turns := rfl
@[simp] theorem State.done_turnCount (s : State) : s.done.turnCount = s.turnCount := rfl

/-! ### State.emit -/

@[simp] theorem State.emit_cfg (s : State) (evs : List Event) : (s.emit evs).cfg = s.cfg := rfl
@[simp] theorem State.emit_result (s : State) (evs : List Event) : (s.emit evs).result = s.result := rfl
@[simp] theorem State.emit_rxbuf (s : State) (evs : List Event) : (s.emit evs).rxbuf = s.rxbuf := rfl
@[simp] theorem State.emit_droppedCount (s : State) (evs : List Event) : (s.emit evs).droppedCount = s.droppedCount := rfl
@[simp] theorem State.emit_overflowCount (s : State) (evs : List Event) : (s.emit evs).overflowCount = s.overflowCount := rfl
@[simp] theorem State.emit_pinState (s : State) (evs : List Event) : (s.emit evs).pinState = s.pinState := rfl
@[simp] theorem State.emit_now (s : State) (evs : List Event) : (s.emit evs).now = s.now := rfl
@[simp] theorem State.emit_nextSeq (s : State) (evs : List Event) : (s.emit evs).nextSeq = s.nextSeq := rfl
@[simp] theorem State.emit_db (s : State) (evs : List Event) : (s.emit evs).db = s.db := rfl
@[simp] theorem State.emit_enc (s : State) (evs : List Event) : (s.emit evs).enc = s.enc := rfl
@[simp] theorem State.emit_events (s : State) (evs : List Event) : (s.emit evs).events = s.events ++ evs := rfl
@[simp] theorem State.emit_port (s : State) (evs : List Event) : (s.emit evs).port = s.port := rfl
@[simp] theorem State.emit_turns (s : State) (evs : List Event) : (s.emit evs).turns = s.turns := rfl
@[simp] theorem State.emit_turnCount (s : State) (evs : List Event) : (s.emit evs).turnCount = s.turnCount := rfl

/-! ### State.setPin -/

@[simp] theorem State.setPin_cfg (s : State) (p : Nat) (v : Word) : (s.setPin p v).cfg = s.cfg := rfl
@[simp] theorem State.setPin_result (s : State) (p : Nat) (v : Word) : (s.setPin p v).result = s.result := rfl
@[simp] theorem State.setPin_rxbuf (s : State) (p : Nat) (v : Word) : (s.setPin p v).rxbuf = s.rxbuf := rfl
@[simp] theorem State.setPin_droppedCount (s : State) (p : Nat) (v : Word) : (s.setPin p v).droppedCount = s.droppedCount := rfl
@[simp] theorem State.setPin_overflowCount (s : State) (p : Nat) (v : Word) : (s.setPin p v).overflowCount = s.overflowCount := rfl
@[simp] theorem State.setPin_pinState (s : State) (p : Nat) (v : Word) : (s.setPin p v).pinState = s.pinState.set p (some v) := rfl
@[simp] theorem State.setPin_now (s : State) (p : Nat) (v : Word) : (s.setPin p v).now = s.now := rfl
@[simp] theorem State.setPin_nextSeq (s : State) (p : Nat) (v : Word) : (s.setPin p v).nextSeq = s.nextSeq := rfl
@[simp] theorem State.setPin_db (s : State) (p : Nat) (v : Word) : (s.setPin p v).db = s.db := rfl
@[simp] theorem State.setPin_enc (s : State) (p : Nat) (v : Word) : (s.setPin p v).enc = s.enc := rfl
@[simp] theorem State.setPin_events (s : State) (p : Nat) (v : Word) : (s.setPin p v).events = s.events := rfl
@[simp] theorem State.setPin_port (s : State) (p : Nat) (v : Word) : (s.setPin p v).port = s.port := rfl
@[simp] theorem State.setPin_turns (s : State) (p : Nat) (v : Word) : (s.setPin p v).turns = s.turns := rfl
@[simp] theorem State.setPin_turnCount (s : State) (p : Nat) (v : Word) : (s.setPin p v).turnCount = s.turnCount := rfl

/-! ### State.setDb -/

@[simp] theorem State.setDb_cfg (s : State) (e : Nat) (d : DbEntry) : (s.setDb e d).cfg = s.cfg := rfl
@[simp] theorem State.setDb_result (s : State) (e : Nat) (d : DbEntry) : (s.setDb e d).result = s.result := rfl
@[simp] theorem State.setDb_rxbuf (s : State) (e : Nat) (d : DbEntry) : (s.setDb e d).rxbuf = s.rxbuf := rfl
@[simp] theorem State.setDb_droppedCount (s : State) (e : Nat) (d : DbEntry) : (s.setDb e d).droppedCount = s.droppedCount := rfl
@[simp] theorem State.setDb_overflowCount (s : State) (e : Nat) (d : DbEntry) : (s.setDb e d).overflowCount = s.overflowCount := rfl
@[simp] theorem State.setDb_pinState (s : State) (e : Nat) (d : DbEntry) : (s.setDb e d).pinState = s.pinState := rfl
@[simp] theorem State.setDb_now (s : State) (e : Nat) (d : DbEntry) : (s.setDb e d).now = s.now := rfl
@[simp] theorem State.setDb_nextSeq (s : State) (e : Nat) (d : DbEntry) : (s.setDb e d).nextSeq = s.nextSeq := rfl
@[simp] theorem State.setDb_db (s : State) (e : Nat) (d : DbEntry) : (s.setDb e d).db = s.db.set e d := rfl
@[simp] theorem State.setDb_enc (s : State) (e : Nat) (d : DbEntry) : (s.setDb e d).enc = s.enc := rfl
@[simp] theorem State.setDb_events (s : State) (e : Nat) (d : DbEntry) : (s.setDb e d).events = s.events := rfl
@[simp] theorem State.setDb_port (s : State) (e : Nat) (d : DbEntry) : (s.setDb e d).port = s.port := rfl
@[simp] theorem State.setDb_turns (s : State) (e : Nat) (d : DbEntry) : (s.setDb e d).turns = s.turns := rfl
@[simp] theorem State.setDb_turnCount (s : State) (e : Nat) (d : DbEntry) : (s.setDb e d).turnCount = s.turnCount := rfl

/-! ### State.setEnc -/

@[simp] theorem State.setEnc_cfg (s : State) (e : Nat) (x : EncEntry) : (s.setEnc e x).cfg = s.cfg := rfl
@[simp] theorem State.setEnc_result (s : State) (e : Nat) (x : EncEntry) : (s.setEnc e x).result = s.result := rfl
@[simp] theorem State.setEnc_rxbuf (s : State) (e : Nat) (x : EncEntry) : (s.setEnc e x).rxbuf = s.rxbuf := rfl
@[simp] theorem State.setEnc_droppedCount (s : State) (e : Nat) (x : EncEntry) : (s.setEnc e x).droppedCount = s.droppedCount := rfl
@[simp] theorem State.setEnc_overflowCount (s : State) (e : Nat) (x : EncEntry) : (s.setEnc e x).overflowCount = s.overflowCount := rfl
@[simp] theorem State.setEnc_pinState (s : State) (e : Nat) (x : EncEntry) : (s.setEnc e x).pinState = s.pinState := rfl
@[simp] theorem State.setEnc_now (s : State) (e : Nat) (x : EncEntry) : (s.setEnc e x).now = s.now := rfl
@[simp] theorem State.setEnc_nextSeq (s : State) (e : Nat) (x : EncEntry) : (s.setEnc e x).nextSeq = s.nextSeq := rfl
@[simp] theorem State.setEnc_db (s : State) (e : Nat) (x : EncEntry) : (s.setEnc e x).db = s.db := rfl
@[simp] theorem State.setEnc_enc (s : State) (e : Nat) (x : EncEntry) : (s.setEnc e x).enc = s.enc.set e x := rfl
@[simp] theorem State.setEnc_events (s : State) (e : Nat) (x : EncEntry) : (s.setEnc e x).events = s.events := rfl
@[simp] theorem State.setEnc_port (s : State) (e : Nat) (x : EncEntry) : (s.setEnc e x).port = s.port := rfl
@[simp] theorem State.setEnc_turns (s : State) (e : Nat) (x : EncEntry) : (s.setEnc e x).turns = s.turns := rfl
@[simp] theorem State.setEnc_turnCount (s : State) (e : Nat) (x : EncEntry) : (s.setEnc e x).turnCount = s.turnCount := rfl

/-! ### State.bumpSeq -/

@[simp] theorem State.bumpSeq_cfg (s : State) : s.bumpSeq.cfg = s.cfg := rfl
@[simp] theorem State.bumpSeq_result (s : State) : s.bumpSeq.result = s.result := rfl
@[simp] theorem State.bumpSeq_rxbuf (s : State) : s.bumpSeq.rxbuf = s.rxbuf := rfl
@[simp] theorem State.bumpSeq_droppedCount (s : State) : s.bumpSeq.droppedCount = s.droppedCount := rfl
@[simp] theorem State.bumpSeq_overflowCount (s : State) : s.bumpSeq.overflowCount = s.overflowCount := rfl
@[simp] theorem State.bumpSeq_pinState (s : State) : s.bumpSeq.pinState = s.pinState := rfl
@[simp] theorem State.bumpSeq_now (s : State) : s.bumpSeq.now = s.now := rfl
@[simp] theorem State.bumpSeq_nextSeq (s : State) : s.bumpSeq.nextSeq = s.nextSeq + 1 := rfl
@[simp] theorem State.bumpSeq_db (s : State) : s.bumpSeq.db = s.db := rfl
@[simp] theorem State.bumpSeq_enc (s : State) : s.bumpSeq.enc = s.enc := rfl
@[simp] theorem State.bumpSeq_events (s : State) : s.bumpSeq.events = s.events := rfl
@[simp] theorem State.bumpSeq_port (s : State) : s.bumpSeq.port = s.port := rfl
@[simp] theorem State.bumpSeq_turns (s : State) : s.bumpSeq.turns = s.turns := rfl
@[simp] theorem State.bumpSeq_turnCount (s : State) : s.bumpSeq.turnCount = s.turnCount := rfl

/-! ### State.consume -/

@[simp] theorem State.consume_cfg (s : State) (n : Nat) : (s.consume n).cfg = s.cfg := rfl
@[simp] theorem State.consume_result (s : State) (n : Nat) : (s.consume n).result = s.result := rfl
@[simp] theorem State.consume_rxbuf (s : State) (n : Nat) : (s.consume n).rxbuf = s.rxbuf.drop n := rfl
@[simp] theorem State.consume_droppedCount (s : State) (n : Nat) : (s.consume n).droppedCount = s.droppedCount := rfl
@[simp] theorem State.consume_overflowCount (s : State) (n : Nat) : (s.consume n).overflowCount = s.overflowCount := rfl
@[simp] theorem State.consume_pinState (s : State) (n : Nat) : (s.consume n).pinState = s.pinState := rfl
@[simp] theorem State.consume_now (s : State) (n : Nat) : (s.consume n).now = s.now := rfl
@[simp] theorem State.consume_nextSeq (s : State) (n : Nat) : (s.consume n).nextSeq = s.nextSeq := rfl
@[simp] theorem State.consume_db (s : State) (n : Nat) : (s.consume n).db = s.db := rfl
@[simp] theorem State.consume_enc (s : State) (n : Nat) : (s.consume n).enc = s.enc := rfl
@[simp] theorem State.consume_events (s : State) (n : Nat) : (s.consume n).events = s.events := rfl
@[simp] theorem State.consume_port (s : State) (n : Nat) : (s.consume n).port = s.port := rfl
@[simp] theorem State.consume_turns (s : State) (n : Nat) : (s.consume n).turns = s.turns := rfl
@[simp] theorem State.consume_turnCount (s : State) (n : Nat) : (s.consume n).turnCount = s.turnCount := rfl

/-! ### State.addDropped -/

@[simp] theorem State.addDropped_cfg (s : State) (n : Nat) : (s.addDropped n).cfg = s.cfg := rfl
@[simp] theorem State.addDropped_result (s : State) (n : Nat) : (s.addDropped n).result = s.result := rfl
@[simp] theorem State.addDropped_rxbuf (s : State) (n : Nat) : (s.addDropped n).rxbuf = s.rxbuf := rfl
@[simp] theorem State.addDropped_droppedCount (s : State) (n : Nat) : (s.addDropped n).droppedCount = s.droppedCount + u32 n := rfl
@[simp] theorem State.addDropped_overflowCount (s : State) (n : Nat) : (s.addDropped n).overflowCount = s.overflowCount := rfl
@[simp] theorem State.addDropped_pinState (s : State) (n : Nat) : (s.addDropped n).pinState = s.pinState := rfl
@[simp] theorem State.addDropped_now (s : State) (n : Nat) : (s.addDropped n).now = s.now := rfl
@[simp] theorem State.addDropped_nextSeq (s : State) (n : Nat) : (s.addDropped n).nextSeq = s.nextSeq := rfl
@[simp] theorem State.addDropped_db (s : State) (n : Nat) : (s.addDropped n).db = s.db := rfl
@[simp] theorem State.addDropped_enc (s : State) (n : Nat) : (s.addDropped n).enc = s.enc := rfl
@[simp] theorem State.addDropped_events (s : State) (n : Nat) : (s.addDropped n).events = s.events := rfl
@[simp] theorem State.addDropped_port (s : State) (n : Nat) : (s.addDropped n).port = s.port := rfl
@[simp] theorem State.addDropped_turns (s : State) (n : Nat) : (s.addDropped n).turns = s.turns := rfl
@[simp] theorem State.addDropped_turnCount (s : State) (n : Nat) : (s.addDropped n).turnCount = s.turnCount := rfl

/-! ### State.append -/

@[simp] theorem State.append_cfg (s : State) (b : Byte) : (s.append b).cfg = s.cfg := rfl
@[simp] theorem State.append_result (s : State) (b : Byte) : (s.append b).result = s.result := rfl
@[simp] theorem State.append_rxbuf (s : State) (b : Byte) : (s.append b).rxbuf = s.rxbuf ++ [b] := rfl
@[simp] theorem State.append_droppedCount (s : State) (b : Byte) : (s.append b).droppedCount = s.droppedCount := rfl
@[simp] theorem State.append_overflowCount (s : State) (b : Byte) : (s.append b).overflowCount = s.overflowCount := rfl
@[simp] theorem State.append_pinState (s : State) (b : Byte) : (s.append b).pinState = s.pinState := rfl
@[simp] theorem State.append_now (s : State) (b : Byte) : (s.append b).now = s.now := rfl
@[simp] theorem State.append_nextSeq (s : State) (b : Byte) : (s.append b).nextSeq = s.nextSeq := rfl
@[simp] theorem State.append_db (s : State) (b : Byte) : (s.append b).db = s.db := rfl
@[simp] theorem State.append_enc (s : State) (b : Byte) : (s.append b).enc = s.enc := rfl
@[simp] theorem State.append_events (s : State) (b : Byte) : (s.append b).events = s.events := rfl
@[simp] theorem State.append_port (s : State) (b : Byte) : (s.append b).port = s.port := rfl
@[simp] theorem State.append_turns (s : State) (b : Byte) : (s.append b).turns = s.turns := rfl
@[simp] theorem State.append_turnCount (s : State) (b : Byte) : (s.append b).turnCount = s.turnCount := rfl

/-! ### State.flush -/

@[simp] theorem State.flush_cfg (s : State) : s.flush.cfg = s.cfg := rfl
@[simp] theorem State.flush_result (s : State) : s.flush.result = s.result := rfl
@[simp] theorem State.flush_rxbuf (s : State) : s.flush.rxbuf = s.rxbuf.drop s.rxbuf.length := rfl
@[simp] theorem State.flush_droppedCount (s : State) : s.flush.droppedCount = s.droppedCount + u32 s.rxbuf.length := rfl
@[simp] theorem State.flush_overflowCount (s : State) : s.flush.overflowCount = s.overflowCount + 1#32 := rfl
@[simp] theorem State.flush_pinState (s : State) : s.flush.pinState = s.pinState := rfl
@[simp] theorem State.flush_now (s : State) : s.flush.now = s.now := rfl
@[simp] theorem State.flush_nextSeq (s : State) : s.flush.nextSeq = s.nextSeq := rfl
@[simp] theorem State.flush_db (s : State) : s.flush.db = s.db := rfl
@[simp] theorem State.flush_enc (s : State) : s.flush.enc = s.enc := rfl
@[simp] theorem State.flush_events (s : State) : s.flush.events = s.events ++ [.dropped (u32 s.rxbuf.length)] := rfl
@[simp] theorem State.flush_port (s : State) : s.flush.port = s.port := rfl
@[simp] theorem State.flush_turns (s : State) : s.flush.turns = s.turns := rfl
@[simp] theorem State.flush_turnCount (s : State) : s.flush.turnCount = s.turnCount := rfl

/-! ### State.powerOn -/

@[simp] theorem State.powerOn_cfg (c : Config) : (State.powerOn c).cfg = c := rfl
@[simp] theorem State.powerOn_result (c : Config) : (State.powerOn c).result = { status := .ok, data := .empty } := rfl
@[simp] theorem State.powerOn_rxbuf (c : Config) : (State.powerOn c).rxbuf = [] := rfl
@[simp] theorem State.powerOn_droppedCount (c : Config) : (State.powerOn c).droppedCount = 0 := rfl
@[simp] theorem State.powerOn_overflowCount (c : Config) : (State.powerOn c).overflowCount = 0 := rfl
@[simp] theorem State.powerOn_pinState (c : Config) : (State.powerOn c).pinState = List.replicate c.nPins none := rfl
@[simp] theorem State.powerOn_now (c : Config) : (State.powerOn c).now = 0 := rfl
@[simp] theorem State.powerOn_nextSeq (c : Config) : (State.powerOn c).nextSeq = 0 := rfl
@[simp] theorem State.powerOn_db (c : Config) : (State.powerOn c).db = List.replicate c.nDb DbEntry.reset := rfl
@[simp] theorem State.powerOn_enc (c : Config) : (State.powerOn c).enc = List.replicate c.nEnc EncEntry.reset := rfl
@[simp] theorem State.powerOn_events (c : Config) : (State.powerOn c).events = [] := rfl
@[simp] theorem State.powerOn_port (c : Config) : (State.powerOn c).port = [] := rfl
@[simp] theorem State.powerOn_turns (c : Config) : (State.powerOn c).turns = [] := rfl
@[simp] theorem State.powerOn_turnCount (c : Config) : (State.powerOn c).turnCount = 0 := rfl

/-! ### State.advance and State.fetched: they touch the scheduler's fields and the port only -/

@[simp] theorem State.advance_cfg (s : State) : s.advance.cfg = s.cfg := by unfold State.advance; split <;> rfl
@[simp] theorem State.advance_result (s : State) : s.advance.result = s.result := by unfold State.advance; split <;> rfl
@[simp] theorem State.advance_rxbuf (s : State) : s.advance.rxbuf = s.rxbuf := by unfold State.advance; split <;> rfl
@[simp] theorem State.advance_droppedCount (s : State) : s.advance.droppedCount = s.droppedCount := by unfold State.advance; split <;> rfl
@[simp] theorem State.advance_overflowCount (s : State) : s.advance.overflowCount = s.overflowCount := by unfold State.advance; split <;> rfl
@[simp] theorem State.advance_pinState (s : State) : s.advance.pinState = s.pinState := by unfold State.advance; split <;> rfl
@[simp] theorem State.advance_now (s : State) : s.advance.now = s.now := by unfold State.advance; split <;> rfl
@[simp] theorem State.advance_nextSeq (s : State) : s.advance.nextSeq = s.nextSeq := by unfold State.advance; split <;> rfl
@[simp] theorem State.advance_db (s : State) : s.advance.db = s.db := by unfold State.advance; split <;> rfl
@[simp] theorem State.advance_enc (s : State) : s.advance.enc = s.enc := by unfold State.advance; split <;> rfl
@[simp] theorem State.advance_events (s : State) : s.advance.events = s.events := by unfold State.advance; split <;> rfl
@[simp] theorem State.advance_port (s : State) : s.advance.port = s.port := by unfold State.advance; split <;> rfl

@[simp] theorem State.fetched_cfg (s : State) (rest : List Byte) : (s.fetched rest).cfg = s.cfg := by simp [State.fetched]
@[simp] theorem State.fetched_result (s : State) (rest : List Byte) : (s.fetched rest).result = s.result := by simp [State.fetched]
@[simp] theorem State.fetched_rxbuf (s : State) (rest : List Byte) : (s.fetched rest).rxbuf = s.rxbuf := by simp [State.fetched]
@[simp] theorem State.fetched_droppedCount (s : State) (rest : List Byte) : (s.fetched rest).droppedCount = s.droppedCount := by simp [State.fetched]
@[simp] theorem State.fetched_overflowCount (s : State) (rest : List Byte) : (s.fetched rest).overflowCount = s.overflowCount := by simp [State.fetched]
@[simp] theorem State.fetched_pinState (s : State) (rest : List Byte) : (s.fetched rest).pinState = s.pinState := by simp [State.fetched]
@[simp] theorem State.fetched_now (s : State) (rest : List Byte) : (s.fetched rest).now = s.now := by simp [State.fetched]
@[simp] theorem State.fetched_nextSeq (s : State) (rest : List Byte) : (s.fetched rest).nextSeq = s.nextSeq := by simp [State.fetched]
@[simp] theorem State.fetched_db (s : State) (rest : List Byte) : (s.fetched rest).db = s.db := by simp [State.fetched]
@[simp] theorem State.fetched_enc (s : State) (rest : List Byte) : (s.fetched rest).enc = s.enc := by simp [State.fetched]
@[simp] theorem State.fetched_events (s : State) (rest : List Byte) : (s.fetched rest).events = s.events := by simp [State.fetched]
@[simp] theorem State.fetched_port (s : State) (rest : List Byte) : (s.fetched rest).port = rest := by simp [State.fetched]

theorem State.fetched_eq (s : State) (rest : List Byte) :
    s.fetched rest = { s with
      port := rest
      turns := s.turns.tail
      turnCount := if s.turns = [] then s.turnCount + 1 else s.turnCount } := by
  obtain ⟨⟩ := s
  rename_i turns _
  cases turns <;> rfl

end Sys2Proof.Machine
end

