-- ==== Sys2Proof/Laws/Ops.lean ====
section
/-! SUPPORT. What the shared operations over arrays, subscribers and reactions do, said once. -/

namespace Sys2Proof.Machine

/-! ### The reading of RX_CAP (R37) -/

@[simp] theorem rxCapReading_none : rxCapReading none = 0#32 := rfl

@[simp] theorem rxCapReading_of_lt {n : Nat} (h : n < 2 ^ 32) : rxCapReading (some n) = u32 n := if_pos h

@[simp] theorem rxCapReading_of_le {n : Nat} (h : 2 ^ 32 ≤ n) : rxCapReading (some n) = Config.wideRxCap n :=
  if_neg (by omega)

/-! ### Ticks (R184) -/

/-- `ceil(ms / TICK_PERIOD)` is the least number of ticks that lasts at least `ms`. -/
theorem ticksOfMs_le_iff (c : Config) (ms : Rat) (n : Nat) (h : 0 < c.tickPeriodMs) :
    ticksOfMs c ms ≤ n ↔ ms ≤ n * c.tickPeriodMs := by
  rw [ticksOfMs, Int.toNat_le, ← div_le_iff₀ h]
  exact Rat.ceil_le_iff.trans (by norm_cast)

/-! ### Array reads after writes -/

theorem State.pinValue_setPin (s : State) (p q : Nat) (v : Word) (h : p < s.pinState.length) :
    (s.setPin p v).pinValue q = if q = p then some v else s.pinValue q := by
  by_cases hq : q = p
  · subst hq; simp [State.pinValue, h]
  · simp [State.pinValue, hq, List.getElem?_set_ne (Ne.symm hq)]

theorem State.dbAt_setDb (s : State) (e j : Nat) (d : DbEntry) (h : e < s.db.length) :
    (s.setDb e d).dbAt j = if j = e then d else s.dbAt j := by
  by_cases hj : j = e
  · subst hj; simp [State.dbAt, h]
  · simp [State.dbAt, hj, List.getElem?_set_ne (Ne.symm hj)]

theorem State.encAt_setEnc (s : State) (e j : Nat) (x : EncEntry) (h : e < s.enc.length) :
    (s.setEnc e x).encAt j = if j = e then x else s.encAt j := by
  by_cases hj : j = e
  · subst hj; simp [State.encAt, h]
  · simp [State.encAt, hj, List.getElem?_set_ne (Ne.symm hj)]

theorem State.dbAt_valid_lt (s : State) (e : Nat) (h : (s.dbAt e).valid = true) : e < s.db.length := by
  by_contra hn
  simp [State.dbAt, List.getElem?_eq_none (Nat.le_of_not_lt hn), DbEntry.reset] at h

theorem State.encAt_valid_lt (s : State) (e : Nat) (h : (s.encAt e).valid = true) : e < s.enc.length := by
  by_contra hn
  simp [State.encAt, List.getElem?_eq_none (Nat.le_of_not_lt hn), EncEntry.reset] at h

theorem State.dbAt_mem (s : State) (e : Nat) (h : e < s.db.length) : s.dbAt e ∈ s.db := by
  simp [State.dbAt, h]

theorem State.encAt_mem (s : State) (e : Nat) (h : e < s.enc.length) : s.encAt e ∈ s.enc := by
  simp [State.encAt, h]

theorem State.expiryEnabled_iff (s : State) (e : Byte) :
    s.expiryEnabled e = true ↔
      (s.dbAt e.toNat).valid = true ∧ (s.dbAt e.toNat).armed = true ∧ (s.dbAt e.toNat).deadline ≤ s.now := by
  simp [State.expiryEnabled, and_assoc]

/-- The pending list holds exactly the slots whose expiry is enabled (R267). -/
theorem State.mem_pendingExpiries (s : State) (e : Byte) : e ∈ s.pendingExpiries ↔ s.expiryEnabled e = true := by
  constructor
  · intro h
    exact (List.mem_filter.mp h).2
  · intro h
    refine List.mem_filter.mpr ⟨List.mem_map.mpr ⟨e.toNat, ?_, by simp⟩, h⟩
    exact List.mem_range.mpr (s.dbAt_valid_lt _ ((s.expiryEnabled_iff e).mp h).1)

/-! ### Subscribers (R33) -/

theorem mem_dbSubscribers (p : Nat) (l : List DbEntry) (n : Nat) (y : Nat × Subscriber) :
    y ∈ dbSubscribers p n l ↔
      ∃ i d, l[i]? = some d ∧ d.valid = true ∧ d.pin = p ∧ y = (d.seq, .debounce (n + i)) := by
  induction l generalizing n with
  | nil => simp [dbSubscribers]
  | cons d l ih =>
    have split : (∃ i d', (d :: l)[i]? = some d' ∧ d'.valid = true ∧ d'.pin = p ∧ y = (d'.seq, .debounce (n + i))) ↔
        (d.valid = true ∧ d.pin = p ∧ y = (d.seq, .debounce n)) ∨
          ∃ i d', l[i]? = some d' ∧ d'.valid = true ∧ d'.pin = p ∧ y = (d'.seq, .debounce (n + 1 + i)) := by
      constructor
      · rintro ⟨i, d', h, hv, hp, hy⟩
        cases i with
        | zero => simp at h; subst h; exact .inl ⟨hv, hp, hy⟩
        | succ i => exact .inr ⟨i, d', by simpa using h, hv, hp, by rw [hy]; congr 2; omega⟩
      · rintro (⟨hv, hp, hy⟩ | ⟨i, d', h, hv, hp, hy⟩)
        · exact ⟨0, d, rfl, hv, hp, hy⟩
        · exact ⟨i + 1, d', by simpa using h, hv, hp, by rw [hy]; congr 2; omega⟩
    rw [split, ← ih, dbSubscribers]
    split
    · rename_i hd
      simp [hd]
    · rename_i hd
      constructor
      · exact .inr
      · rintro (⟨hv, hp, _⟩ | h)
        · exact absurd ⟨hv, hp⟩ hd
        · exact h

theorem mem_encSubscribers (p : Nat) (l : List EncEntry) (n : Nat) (y : Nat × Subscriber) :
    y ∈ encSubscribers p n l ↔
      ∃ i x, l[i]? = some x ∧ x.valid = true ∧ x.pin1 = p ∧ y = (x.seq, .encoder (n + i)) := by
  induction l generalizing n with
  | nil => simp [encSubscribers]
  | cons d l ih =>
    have split : (∃ i d', (d :: l)[i]? = some d' ∧ d'.valid = true ∧ d'.pin1 = p ∧ y = (d'.seq, .encoder (n + i))) ↔
        (d.valid = true ∧ d.pin1 = p ∧ y = (d.seq, .encoder n)) ∨
          ∃ i d', l[i]? = some d' ∧ d'.valid = true ∧ d'.pin1 = p ∧ y = (d'.seq, .encoder (n + 1 + i)) := by
      constructor
      · rintro ⟨i, d', h, hv, hp, hy⟩
        cases i with
        | zero => simp at h; subst h; exact .inl ⟨hv, hp, hy⟩
        | succ i => exact .inr ⟨i, d', by simpa using h, hv, hp, by rw [hy]; congr 2; omega⟩
      · rintro (⟨hv, hp, hy⟩ | ⟨i, d', h, hv, hp, hy⟩)
        · exact ⟨0, d, rfl, hv, hp, hy⟩
        · exact ⟨i + 1, d', by simpa using h, hv, hp, by rw [hy]; congr 2; omega⟩
    rw [split, ← ih, encSubscribers]
    split
    · rename_i hd
      simp [hd]
    · rename_i hd
      constructor
      · exact .inr
      · rintro (⟨hv, hp, _⟩ | h)
        · exact absurd ⟨hv, hp⟩ hd
        · exact h

theorem insertBySeq_perm (x : Nat × Subscriber) (l : List (Nat × Subscriber)) :
    (insertBySeq x l).Perm (x :: l) := by
  induction l with
  | nil => exact .refl _
  | cons y l ih =>
    unfold insertBySeq
    split
    · exact .refl _
    · exact (ih.cons y).trans (.swap x y l)

/-- Sorting keeps the subscribers. -/
theorem sortBySeq_perm (l : List (Nat × Subscriber)) : (sortBySeq l).Perm l := by
  induction l with
  | nil => exact .refl _
  | cons x l ih => exact (insertBySeq_perm x _).trans (ih.cons x)

theorem insertBySeq_sorted (x : Nat × Subscriber) (l : List (Nat × Subscriber))
    (h : l.Pairwise (fun a b => a.1 ≤ b.1)) : (insertBySeq x l).Pairwise (fun a b => a.1 ≤ b.1) := by
  induction l with
  | nil => simp [insertBySeq]
  | cons y l ih =>
    rw [List.pairwise_cons] at h
    unfold insertBySeq
    split
    · rename_i hxy
      refine List.pairwise_cons.mpr ⟨fun z hz => ?_, List.pairwise_cons.mpr h⟩
      rcases List.mem_cons.mp hz with rfl | hz
      · exact hxy
      · exact hxy.trans (h.1 z hz)
    · rename_i hxy
      refine List.pairwise_cons.mpr ⟨fun z hz => ?_, ih h.2⟩
      rcases List.mem_cons.mp ((insertBySeq_perm x l).mem_iff.mp hz) with rfl | hz
      · omega
      · exact h.1 z hz

/-- The subscribers come in ascending `seq` (R33). -/
theorem sortBySeq_sorted (l : List (Nat × Subscriber)) : (sortBySeq l).Pairwise (fun a b => a.1 ≤ b.1) := by
  induction l with
  | nil => exact .nil
  | cons x l ih => exact insertBySeq_sorted x _ ih

/-- Who the subscribers of a pin are (R33). -/
theorem State.mem_subscribers (s : State) (p : Nat) (x : Subscriber) :
    x ∈ s.subscribers p ↔
      match x with
      | .debounce e => (s.dbAt e).valid = true ∧ (s.dbAt e).pin = p
      | .encoder e => (s.encAt e).valid = true ∧ (s.encAt e).pin1 = p := by
  unfold State.subscribers
  simp only [List.mem_map, (sortBySeq_perm _).mem_iff, List.mem_append, mem_dbSubscribers, mem_encSubscribers]
  cases x with
  | debounce e =>
    constructor
    · rintro ⟨y, (⟨i, d, h, hv, hp, rfl⟩ | ⟨i, d, h, hv, hp, rfl⟩), hy⟩
      · simp only [Nat.zero_add, Subscriber.debounce.injEq] at hy
        subst hy
        simp [State.dbAt, h, hv, hp]
      · simp at hy
    · rintro ⟨hv, hp⟩
      have hl := s.dbAt_valid_lt e hv
      exact ⟨_, .inl ⟨e, s.dbAt e, by simp [State.dbAt, hl], hv, hp, rfl⟩, by simp⟩
  | encoder e =>
    constructor
    · rintro ⟨y, (⟨i, d, h, hv, hp, rfl⟩ | ⟨i, d, h, hv, hp, rfl⟩), hy⟩
      · simp at hy
      · simp only [Nat.zero_add, Subscriber.encoder.injEq] at hy
        subst hy
        simp [State.encAt, h, hv, hp]
    · rintro ⟨hv, hp⟩
      have hl := s.encAt_valid_lt e hv
      exact ⟨_, .inr ⟨e, s.encAt e, by simp [State.encAt, hl], hv, hp, rfl⟩, by simp⟩

theorem dbSubscribers_nodup (p : Nat) (l : List DbEntry) (n : Nat) :
    ((dbSubscribers p n l).map (·.2)).Nodup := by
  induction l generalizing n with
  | nil => simp [dbSubscribers]
  | cons d l ih =>
    unfold dbSubscribers
    split
    · refine List.nodup_cons.mpr ⟨fun h => ?_, ih _⟩
      obtain ⟨y, hy, he⟩ := List.mem_map.mp h
      obtain ⟨i, d', _, _, _, rfl⟩ := (mem_dbSubscribers _ _ _ _).mp hy
      simp at he
      omega
    · exact ih _

theorem encSubscribers_nodup (p : Nat) (l : List EncEntry) (n : Nat) :
    ((encSubscribers p n l).map (·.2)).Nodup := by
  induction l generalizing n with
  | nil => simp [encSubscribers]
  | cons d l ih =>
    unfold encSubscribers
    split
    · refine List.nodup_cons.mpr ⟨fun h => ?_, ih _⟩
      obtain ⟨y, hy, he⟩ := List.mem_map.mp h
      obtain ⟨i, d', _, _, _, rfl⟩ := (mem_encSubscribers _ _ _ _).mp hy
      simp at he
      omega
    · exact ih _

/-- No subscriber is notified twice. -/
theorem State.subscribers_nodup (s : State) (p : Nat) : (s.subscribers p).Nodup := by
  unfold State.subscribers
  refine ((sortBySeq_perm _).map _).nodup_iff.mpr ?_
  rw [List.map_append, List.nodup_append]
  refine ⟨dbSubscribers_nodup _ _ _, encSubscribers_nodup _ _ _, fun a ha b hb hab => ?_⟩
  obtain ⟨y, hy, rfl⟩ := List.mem_map.mp ha
  obtain ⟨z, hz, rfl⟩ := List.mem_map.mp hb
  obtain ⟨_, _, _, _, _, rfl⟩ := (mem_dbSubscribers _ _ _ _).mp hy
  obtain ⟨_, _, _, _, _, rfl⟩ := (mem_encSubscribers _ _ _ _).mp hz
  simp at hab

/-! ### Reactions (R180, R204, R233) -/

/-- What one encoder's reaction appends, read off the state before the change. -/
def encoderEvents (v : Word) (s : State) (e : Nat) : List Event :=
  match s.pinValue (s.encAt e).pin2 with
  | none => []
  | some w => (s.encAt e).edgeEvents (edgePhase v w) (BitVec.ofNat 8 e)

/-- What one subscriber's reaction appends. -/
def subscriberEvents (v : Word) (s : State) : Subscriber → List Event
  | .debounce _ => []
  | .encoder e => encoderEvents v s e

/-- The debounce entry in slot `e` after the reactions of `subs`. -/
def dbAfter (subs : List Subscriber) (s : State) (e : Nat) : DbEntry :=
  if .debounce e ∈ subs then (s.dbAt e).rearm s.now else s.dbAt e

/-- The encoder entry in slot `e` after the reactions of `subs` to the state `v`. -/
def encAfter (v : Word) (subs : List Subscriber) (s : State) (e : Nat) : EncEntry :=
  if .encoder e ∈ subs then
    match s.pinValue (s.encAt e).pin2 with
    | none => s.encAt e
    | some w => (s.encAt e).afterEdge (edgePhase v w)
  else s.encAt e

theorem EncEntry.afterEdge_valid (d : Phase) (x : EncEntry) : (x.afterEdge d).valid = x.valid := by
  unfold EncEntry.afterEdge; split <;> (try split) <;> rfl

theorem EncEntry.afterEdge_pin1 (d : Phase) (x : EncEntry) : (x.afterEdge d).pin1 = x.pin1 := by
  unfold EncEntry.afterEdge; split <;> (try split) <;> rfl

theorem EncEntry.afterEdge_pin2 (d : Phase) (x : EncEntry) : (x.afterEdge d).pin2 = x.pin2 := by
  unfold EncEntry.afterEdge; split <;> (try split) <;> rfl

theorem EncEntry.afterEdge_seq (d : Phase) (x : EncEntry) : (x.afterEdge d).seq = x.seq := by
  unfold EncEntry.afterEdge; split <;> (try split) <;> rfl

/-- One reaction (R204, R233): it touches one entry file and the log, and nothing else. -/
theorem notify_ok (v : Word) (s t : State) (x : Subscriber) (h : notify v s x = .ok t) :
    (∃ e, x = .debounce e ∧ t = s.setDb e ((s.dbAt e).rearm s.now)) ∨
      ∃ e w, x = .encoder e ∧ s.pinValue (s.encAt e).pin2 = some w ∧
        t = (s.setEnc e ((s.encAt e).afterEdge (edgePhase v w))).emit
          ((s.encAt e).edgeEvents (edgePhase v w) (BitVec.ofNat 8 e)) := by
  cases x with
  | debounce e =>
    simp only [notify, Except.ok.injEq] at h
    exact .inl ⟨e, rfl, h.symm⟩
  | encoder e =>
    simp only [notify, encOnChange] at h
    split at h
    · cases h
    · rename_i w hw
      simp only [Except.ok.injEq] at h
      exact .inr ⟨e, w, rfl, hw, h.symm⟩

/-- All reactions together (R180, R182): which entries change and how, what is logged and in which order, and that
nothing else changes. The subscribers are live and each is notified once. -/
theorem notifyAll_ok (v : Word) (subs : List Subscriber) (s t : State) (hn : subs.Nodup)
    (hd : ∀ e, .debounce e ∈ subs → e < s.db.length) (he : ∀ e, .encoder e ∈ subs → e < s.enc.length)
    (h : notifyAll v subs s = .ok t) :
    t = { s with db := t.db, enc := t.enc, events := t.events } ∧
      t.db.length = s.db.length ∧ t.enc.length = s.enc.length ∧
      (∀ e, t.dbAt e = dbAfter subs s e) ∧ (∀ e, t.encAt e = encAfter v subs s e) ∧
      t.events = s.events ++ subs.flatMap (subscriberEvents v s) ∧
      (∀ e, .encoder e ∈ subs → (s.pinValue (s.encAt e).pin2).isSome = true) := by
  induction subs generalizing s with
  | nil =>
    simp only [notifyAll, Except.ok.injEq] at h
    subst h
    simp [dbAfter, encAfter]
  | cons x l ih =>
    rw [List.nodup_cons] at hn
    simp only [notifyAll] at h
    split at h
    · rename_i s' hs'
      rcases notify_ok v s s' x hs' with ⟨e, rfl, rfl⟩ | ⟨e, w, rfl, hw, rfl⟩
      · have hel : e < s.db.length := hd e (by simp)
        obtain ⟨h1, h2, h3, h4, h5, h6, h7⟩ := ih (s.setDb e ((s.dbAt e).rearm s.now)) hn.2
          (fun j hj => by simpa using hd j (by simp [hj])) (fun j hj => by simpa using he j (by simp [hj])) h
        refine ⟨by rw [h1]; simp [State.setDb], by simpa using h2, by simpa using h3, fun j => ?_, fun j => ?_, ?_, ?_⟩
        · rw [h4 j]
          unfold dbAfter
          by_cases hj : j = e
          · subst hj
            simp [hn.1, State.dbAt_setDb _ _ _ _ hel]
          · simp [hj, State.dbAt_setDb _ _ _ _ hel]
        · rw [h5 j]
          simp [encAfter, State.encAt, State.pinValue]
        · rw [h6]
          simp [subscriberEvents]
          congr 1
        · intro j hj
          exact h7 j (by simpa using hj)
      · have hel : e < s.enc.length := he e (by simp)
        obtain ⟨h1, h2, h3, h4, h5, h6, h7⟩ := ih _ hn.2
          (fun j hj => by simpa using hd j (by simp [hj])) (fun j hj => by simpa using he j (by simp [hj])) h
        have hat : ∀ j, (((s.setEnc e ((s.encAt e).afterEdge (edgePhase v w))).emit
            ((s.encAt e).edgeEvents (edgePhase v w) (BitVec.ofNat 8 e))).encAt j) =
              if j = e then (s.encAt e).afterEdge (edgePhase v w) else s.encAt j :=
          fun j => State.encAt_setEnc _ _ _ _ hel
        refine ⟨by rw [h1]; simp [State.setEnc, State.emit], by simpa using h2, by simpa using h3, fun j => ?_,
          fun j => ?_, ?_, ?_⟩
        · rw [h4 j]
          simp [dbAfter, State.dbAt]
        · rw [h5 j]
          unfold encAfter
          rw [hat j]
          by_cases hj : j = e
          · subst hj
            simp [hn.1, hw]
          · simp [hj, State.pinValue]
        · rw [h6]
          have hev : ∀ x ∈ l, subscriberEvents v ((s.setEnc e ((s.encAt e).afterEdge (edgePhase v w))).emit
              ((s.encAt e).edgeEvents (edgePhase v w) (BitVec.ofNat 8 e))) x = subscriberEvents v s x := by
            intro x hx
            cases x with
            | debounce j => rfl
            | encoder j =>
              have hj : j ≠ e := fun hj => hn.1 (hj ▸ hx)
              simp only [subscriberEvents, encoderEvents]
              rw [hat j]
              simp [hj, State.pinValue]
          rw [List.flatMap_cons, List.flatMap_congr hev]
          simp [subscriberEvents, encoderEvents, hw]
        · intro j hj
          rcases List.mem_cons.mp hj with hj | hj
          · cases hj; simp [hw]
          · have := h7 j hj
            rw [hat j] at this
            have hne : j ≠ e := fun hje => hn.1 (hje ▸ hj)
            simpa [hne, State.pinValue] using this
    · cases h

/-- The reactions complete where every encoder among them samples a known pin2. -/
theorem notifyAll_completes (v : Word) (subs : List Subscriber) (s : State) (hn : subs.Nodup)
    (he : ∀ e, .encoder e ∈ subs → e < s.enc.length ∧ (s.pinValue (s.encAt e).pin2).isSome = true) :
    ∃ t, notifyAll v subs s = .ok t := by
  induction subs generalizing s with
  | nil => exact ⟨s, rfl⟩
  | cons x l ih =>
    rw [List.nodup_cons] at hn
    cases x with
    | debounce e =>
      simp only [notifyAll, notify, dbOnChange]
      exact ih _ hn.2 fun j hj => by simpa [State.pinValue, State.encAt] using he j (by simp [hj])
    | encoder e =>
      obtain ⟨hel, hw⟩ := he e (by simp)
      obtain ⟨w, hw⟩ := Option.isSome_iff_exists.mp hw
      simp only [notifyAll, notify, encOnChange, hw]
      refine ih _ hn.2 fun j hj => ?_
      have hne : j ≠ e := fun hje => hn.1 (hje ▸ hj)
      have := he j (by simp [hj])
      have hat := State.encAt_setEnc s e j ((s.encAt e).afterEdge (edgePhase v w)) hel
      simp only [hne, if_false] at hat
      refine ⟨by simpa using this.1, ?_⟩
      show (s.pinValue (((s.setEnc e _).encAt j).pin2)).isSome = true
      rw [hat]
      exact this.2

end Sys2Proof.Machine
end

