-- ==== Sys2Proof/Laws/Inv.lean ====
section
/-! SUPPORT. How the parts of the invariant move with the updates of the state. -/

namespace Sys2Proof.Machine

/-! ### Entries -/

/-- An entry stays sound while the pins stay known and `next_seq` only grows. -/
theorem DbEntry.Sound.mono {s t : State} {d : DbEntry} (h : d.Sound s) (hc : t.cfg.nPins = s.cfg.nPins)
    (hp : ∀ q, (s.pinValue q).isSome = true → (t.pinValue q).isSome = true) (hn : s.nextSeq ≤ t.nextSeq) :
    d.Sound t :=
  ⟨h.free, fun v => hc ▸ h.pin v, fun a => hp _ (h.known a), fun v => Nat.lt_of_lt_of_le (h.stamped v) hn⟩

theorem EncEntry.Sound.mono {s t : State} {x : EncEntry} (h : x.Sound s) (hc : t.cfg.nPins = s.cfg.nPins)
    (hp : ∀ q, (s.pinValue q).isSome = true → (t.pinValue q).isSome = true) (hn : s.nextSeq ≤ t.nextSeq) :
    x.Sound t :=
  ⟨h.free, fun v => hc ▸ h.pins v, h.distinct, fun v => ⟨hp _ (h.known v).1, hp _ (h.known v).2⟩,
    fun v => Nat.lt_of_lt_of_le (h.stamped v) hn⟩

theorem DbEntry.reset_sound (s : State) : DbEntry.reset.Sound s :=
  ⟨fun _ => rfl, fun h => (by cases h), fun h => (by cases h), fun h => (by cases h)⟩

theorem EncEntry.reset_sound (s : State) : EncEntry.reset.Sound s :=
  ⟨fun _ => rfl, fun h => (by cases h), fun h => (by cases h), fun h => (by cases h), fun h => (by cases h)⟩

theorem State.Inv.dbAt {s : State} (h : s.Inv) (e : Nat) : (s.dbAt e).Sound s := by
  by_cases he : e < s.db.length
  · exact h.db _ (s.dbAt_mem e he)
  · rw [show s.dbAt e = DbEntry.reset by simp [State.dbAt, List.getElem?_eq_none (Nat.le_of_not_lt he)]]
    exact DbEntry.reset_sound s

theorem State.Inv.encAt {s : State} (h : s.Inv) (e : Nat) : (s.encAt e).Sound s := by
  by_cases he : e < s.enc.length
  · exact h.enc _ (s.encAt_mem e he)
  · rw [show s.encAt e = EncEntry.reset by simp [State.encAt, List.getElem?_eq_none (Nat.le_of_not_lt he)]]
    exact EncEntry.reset_sound s

/-- The entries are exactly what the slots read as. -/
theorem State.mem_db (s : State) (d : DbEntry) (h : d ∈ s.db) : ∃ e, e < s.db.length ∧ s.dbAt e = d := by
  obtain ⟨e, he, rfl⟩ := List.getElem_of_mem h
  exact ⟨e, he, by simp [State.dbAt, he]⟩

theorem State.mem_enc (s : State) (x : EncEntry) (h : x ∈ s.enc) : ∃ e, e < s.enc.length ∧ s.encAt e = x := by
  obtain ⟨e, he, rfl⟩ := List.getElem_of_mem h
  exact ⟨e, he, by simp [State.encAt, he]⟩

/-! ### Live `seq` values (R30) -/

theorem dbSeqs_eq (l : List DbEntry) :
    (l.filter (·.valid)).map (·.seq) = ((l.map fun d => (d.valid, d.seq)).filter (·.1)).map (·.2) := by
  induction l with
  | nil => rfl
  | cons d l ih => cases h : d.valid <;> simp [h, ih]

theorem encSeqs_eq (l : List EncEntry) :
    (l.filter (·.valid)).map (·.seq) = ((l.map fun d => (d.valid, d.seq)).filter (·.1)).map (·.2) := by
  induction l with
  | nil => rfl
  | cons d l ih => cases h : d.valid <;> simp [h, ih]

/-- Entries that keep their `valid` and `seq` keep the live `seq` values. -/
theorem State.liveSeqs_congr (s t : State) (hd : t.db.length = s.db.length) (he : t.enc.length = s.enc.length)
    (hdb : ∀ e, (t.dbAt e).valid = (s.dbAt e).valid ∧ (t.dbAt e).seq = (s.dbAt e).seq)
    (henc : ∀ e, (t.encAt e).valid = (s.encAt e).valid ∧ (t.encAt e).seq = (s.encAt e).seq) :
    t.liveSeqs = s.liveSeqs := by
  have h1 : (t.db.map fun d => (d.valid, d.seq)) = s.db.map fun d => (d.valid, d.seq) := by
    refine List.ext_getElem (by simpa using hd) fun i h _ => ?_
    have hi : i < t.db.length := by simpa using h
    have := hdb i
    simp only [State.dbAt, List.getD_eq_getElem?_getD, List.getElem?_eq_getElem hi,
      List.getElem?_eq_getElem (hd ▸ hi), Option.getD_some] at this
    simp [this]
  have h2 : (t.enc.map fun d => (d.valid, d.seq)) = s.enc.map fun d => (d.valid, d.seq) := by
    refine List.ext_getElem (by simpa using he) fun i h _ => ?_
    have hi : i < t.enc.length := by simpa using h
    have := henc i
    simp only [State.encAt, List.getD_eq_getElem?_getD, List.getElem?_eq_getElem hi,
      List.getElem?_eq_getElem (he ▸ hi), Option.getD_some] at this
    simp [this]
  rw [State.liveSeqs, State.liveSeqs, dbSeqs_eq, dbSeqs_eq, encSeqs_eq, encSeqs_eq, h1, h2]

/-- Replacing one element of a list, seen as a cut. -/
theorem set_split {α : Type} (l : List α) (i : Nat) (a : α) (h : i < l.length) :
    l = l.take i ++ l[i] :: l.drop (i + 1) ∧ l.set i a = l.take i ++ a :: l.drop (i + 1) := by
  refine ⟨?_, by rw [List.set_eq_take_append_cons_drop, if_pos h]⟩
  rw [List.getElem_cons_drop, List.take_append_drop]

/-- Freeing a slot removes at most its `seq`. -/
theorem State.liveSeqs_freeDb (s : State) (e : Nat) (d : DbEntry) (hv : d.valid = false) :
    (s.setDb e d).liveSeqs.Sublist s.liveSeqs := by
  by_cases he : e < s.db.length
  · obtain ⟨h1, h2⟩ := set_split s.db e d he
    simp only [State.liveSeqs, State.setDb_db, State.setDb_enc, h2]
    conv => rhs; rw [h1]
    simp only [List.filter_append, List.filter_cons, hv, List.map_append, List.append_assoc, Bool.false_eq_true,
      if_false]
    refine List.Sublist.append_left ?_ _
    refine List.Sublist.append_right ?_ _
    split <;> simp
  · simp [State.liveSeqs, List.set_eq_of_length_le (Nat.le_of_not_lt he)]

theorem State.liveSeqs_freeEnc (s : State) (e : Nat) (x : EncEntry) (hv : x.valid = false) :
    (s.setEnc e x).liveSeqs.Sublist s.liveSeqs := by
  by_cases he : e < s.enc.length
  · obtain ⟨h1, h2⟩ := set_split s.enc e x he
    simp only [State.liveSeqs, State.setEnc_db, State.setEnc_enc, h2]
    conv => rhs; rw [h1]
    simp only [List.filter_append, List.filter_cons, hv, List.map_append, Bool.false_eq_true, if_false]
    refine List.Sublist.append_left ?_ _
    refine List.Sublist.append_left ?_ _
    split <;> simp
  · simp [State.liveSeqs, List.set_eq_of_length_le (Nat.le_of_not_lt he)]

/-- Filling a free slot adds its `seq`. -/
theorem State.liveSeqs_fillDb (s : State) (e : Nat) (d : DbEntry) (he : e < s.db.length)
    (ho : (s.dbAt e).valid = false) (hv : d.valid = true) :
    (s.setDb e d).liveSeqs.Perm (d.seq :: s.liveSeqs) := by
  obtain ⟨h1, h2⟩ := set_split s.db e d he
  have ho' : s.db[e].valid = false := by simpa [State.dbAt, he] using ho
  simp only [State.liveSeqs, State.setDb_db, State.setDb_enc, h2]
  conv => rhs; rw [h1]
  simp only [List.filter_append, List.filter_cons, hv, ho', List.map_append, List.append_assoc, if_true,
    List.map_cons, List.cons_append, Bool.false_eq_true, if_false]
  exact List.perm_middle

theorem State.liveSeqs_fillEnc (s : State) (e : Nat) (x : EncEntry) (he : e < s.enc.length)
    (ho : (s.encAt e).valid = false) (hv : x.valid = true) :
    (s.setEnc e x).liveSeqs.Perm (x.seq :: s.liveSeqs) := by
  obtain ⟨h1, h2⟩ := set_split s.enc e x he
  have ho' : s.enc[e].valid = false := by simpa [State.encAt, he] using ho
  simp only [State.liveSeqs, State.setEnc_db, State.setEnc_enc, h2]
  conv => rhs; rw [h1]
  simp only [List.filter_append, List.filter_cons, hv, ho', List.map_append, if_true,
    List.map_cons, Bool.false_eq_true, if_false]
  rw [← List.append_assoc, ← List.append_assoc]
  exact List.perm_middle

/-- Every live `seq` was stamped before `next_seq`. -/
theorem State.Inv.liveSeqs_lt {s : State} (h : s.Inv) (n : Nat) (hn : n ∈ s.liveSeqs) : n < s.nextSeq := by
  simp only [State.liveSeqs, List.mem_append, List.mem_map, List.mem_filter] at hn
  rcases hn with ⟨d, ⟨hd, hv⟩, rfl⟩ | ⟨x, ⟨hx, hv⟩, rfl⟩
  · exact (h.db d hd).stamped hv
  · exact (h.enc x hx).stamped hv

/-! ### The invariant under updates -/

/-- What the invariant looks at decides it. -/
theorem State.Inv.of_same {s t : State} (h : s.Inv) (hc : t.cfg = s.cfg) (hp : t.pinState = s.pinState)
    (hr : ∀ c, s.cfg.rxCap = some c → t.rxbuf.length ≤ c)
    (ho : s.cfg.rxCap = none → t.overflowCount = 0#32)
    (hn : t.nextSeq = s.nextSeq) (hd : t.db = s.db) (he : t.enc = s.enc) : t.Inv := by
  have hpv : ∀ q, t.pinValue q = s.pinValue q := fun q => by simp [State.pinValue, hp]
  refine ⟨hc ▸ h.cfg, ⟨by rw [hp, hc]; exact h.shaped.pins, by rw [hd, hc]; exact h.shaped.db,
    by rw [he, hc]; exact h.shaped.enc⟩, by rwa [hc], by rwa [hc], ?_, ?_, ?_⟩
  · rw [hd]
    exact fun d hd => (h.db d hd).mono (by rw [hc]) (fun q hq => by rwa [hpv]) (by omega)
  · rw [he]
    exact fun x hx => (h.enc x hx).mono (by rw [hc]) (fun q hq => by rwa [hpv]) (by omega)
  · simpa [State.liveSeqs, hd, he] using h.seqs

/-- Writing a debounce slot. -/
theorem State.Inv.setDb {s t : State} (h : s.Inv) (e : Nat) (d : DbEntry) (hc : t.cfg = s.cfg)
    (hp : t.pinState = s.pinState) (hr : t.rxbuf = s.rxbuf) (ho : t.overflowCount = s.overflowCount)
    (hn : s.nextSeq ≤ t.nextSeq) (hd : t.db = s.db.set e d) (he : t.enc = s.enc) (hs : d.Sound t)
    (hl : t.liveSeqs.Nodup) : t.Inv := by
  have hpv : ∀ q, t.pinValue q = s.pinValue q := fun q => by simp [State.pinValue, hp]
  refine ⟨hc ▸ h.cfg, ⟨by rw [hp, hc]; exact h.shaped.pins, by rw [hd, hc]; simpa using h.shaped.db,
    by rw [he, hc]; exact h.shaped.enc⟩, by rw [hc, hr]; exact h.rxBound, by rw [hc, ho]; exact h.noOverflow,
    ?_, ?_, hl⟩
  · rw [hd]
    intro x hx
    rcases List.mem_or_eq_of_mem_set hx with hx | rfl
    · exact (h.db x hx).mono (by rw [hc]) (fun q hq => by rwa [hpv]) hn
    · exact hs
  · rw [he]
    exact fun x hx => (h.enc x hx).mono (by rw [hc]) (fun q hq => by rwa [hpv]) hn

/-- Writing an encoder slot. -/
theorem State.Inv.setEnc {s t : State} (h : s.Inv) (e : Nat) (x : EncEntry) (hc : t.cfg = s.cfg)
    (hp : t.pinState = s.pinState) (hr : t.rxbuf = s.rxbuf) (ho : t.overflowCount = s.overflowCount)
    (hn : s.nextSeq ≤ t.nextSeq) (hd : t.db = s.db) (he : t.enc = s.enc.set e x) (hs : x.Sound t)
    (hl : t.liveSeqs.Nodup) : t.Inv := by
  have hpv : ∀ q, t.pinValue q = s.pinValue q := fun q => by simp [State.pinValue, hp]
  refine ⟨hc ▸ h.cfg, ⟨by rw [hp, hc]; exact h.shaped.pins, by rw [hd, hc]; exact h.shaped.db,
    by rw [he, hc]; simpa using h.shaped.enc⟩, by rw [hc, hr]; exact h.rxBound, by rw [hc, ho]; exact h.noOverflow,
    ?_, ?_, hl⟩
  · rw [hd]
    exact fun x hx => (h.db x hx).mono (by rw [hc]) (fun q hq => by rwa [hpv]) hn
  · rw [he]
    intro y hy
    rcases List.mem_or_eq_of_mem_set hy with hy | rfl
    · exact (h.enc y hy).mono (by rw [hc]) (fun q hq => by rwa [hpv]) hn
    · exact hs

end Sys2Proof.Machine
end

