-- ==== Sys2Proof/Laws/Exec.lean ====
section
/-! SUPPORT. What PIN_CHANGE and DB_EXPIRE can answer, and which steps the block selects, said once. -/

namespace Sys2Proof.Machine

theorem State.subscribers_setPin (s : State) (p q : Nat) (v : Word) :
    (s.setPin p v).subscribers q = s.subscribers q := rfl

/-- A delivered change (R180): the pin's state, its subscribers' entries and their events, and nothing else. -/
theorem deliver_ok (p : Nat) (v : Word) (s t : State) (h : deliver p v s = .ok t) :
    t = { s with pinState := s.pinState.set p (some v), db := t.db, enc := t.enc, events := t.events } ∧
      t.db.length = s.db.length ∧ t.enc.length = s.enc.length ∧
      (∀ e, t.dbAt e =
        if (s.dbAt e).valid = true ∧ (s.dbAt e).pin = p then (s.dbAt e).rearm s.now else s.dbAt e) ∧
      (∀ e, t.encAt e =
        if (s.encAt e).valid = true ∧ (s.encAt e).pin1 = p then
          match (s.setPin p v).pinValue (s.encAt e).pin2 with
          | none => s.encAt e
          | some w => (s.encAt e).afterEdge (edgePhase v w)
        else s.encAt e) ∧
      t.events = s.events ++ (s.subscribers p).flatMap (subscriberEvents v (s.setPin p v)) ∧
      (∀ e, (s.encAt e).valid = true → (s.encAt e).pin1 = p →
        ((s.setPin p v).pinValue (s.encAt e).pin2).isSome = true) := by
  simp only [deliver] at h
  obtain ⟨h1, h2, h3, h4, h5, h6, h7⟩ := notifyAll_ok v _ _ t (State.subscribers_nodup _ p)
    (fun e he => State.dbAt_valid_lt _ e ((State.mem_subscribers _ p _).mp he).1)
    (fun e he => State.encAt_valid_lt _ e ((State.mem_subscribers _ p _).mp he).1) h
  refine ⟨h1, h2, h3, fun e => ?_, fun e => ?_, h6, fun e hv hp => ?_⟩
  · rw [h4 e]
    simp only [dbAfter, State.mem_subscribers]
    rfl
  · rw [h5 e]
    simp only [encAfter, State.mem_subscribers]
    rfl
  · exact h7 e ((State.mem_subscribers _ p _).mpr ⟨hv, hp⟩)

/-- A delivery completes where every encoder on the pin has a pin2 whose state is known. -/
theorem deliver_completes (p : Nat) (v : Word) (s : State)
    (h : ∀ e, (s.encAt e).valid = true → (s.encAt e).pin1 = p →
      ((s.setPin p v).pinValue (s.encAt e).pin2).isSome = true) :
    ∃ t, deliver p v s = .ok t := by
  simp only [deliver]
  refine notifyAll_completes v _ _ (State.subscribers_nodup _ p) fun e he => ?_
  obtain ⟨hv, hp⟩ := (State.mem_subscribers (s.setPin p v) p (.encoder e)).mp he
  exact ⟨State.encAt_valid_lt _ e hv, h e hv hp⟩

/-- What PIN_CHANGE can answer. -/
theorem execPinChange_cases (p : Byte) (v : Word) (s : State) :
    (s.pinInRange p = false ∧ execPinChange p v s = .next (s.finish .outOfRange .empty)) ∨
    (s.pinInRange p = true ∧ s.pinValue p.toNat = some v ∧ execPinChange p v s = .next s.done) ∨
    (s.pinInRange p = true ∧ s.pinValue p.toNat ≠ some v ∧
      ((∃ t, deliver p.toNat v s = .ok t ∧ execPinChange p v s = .next t.done) ∨
        ∃ f, deliver p.toNat v s = .error f ∧ execPinChange p v s = .fault f)) := by
  unfold execPinChange
  by_cases hr : s.pinInRange p = false
  · exact .inl ⟨hr, by simp [hr, refuse]⟩
  · rw [Bool.not_eq_false] at hr
    by_cases hv : s.pinValue p.toNat = some v
    · exact .inr (.inl ⟨hr, hv, by simp [hr, hv]⟩)
    · refine .inr (.inr ⟨hr, hv, ?_⟩)
      cases hd : deliver p.toNat v s with
      | ok t => exact .inl ⟨t, rfl, by simp [hr, hv]⟩
      | error f => exact .inr ⟨f, rfl, by simp [hr, hv]⟩

/-- DB_EXPIRE, where it is enabled on a pin of known state (R206). -/
theorem execDbExpire_enabled (e : Byte) (s : State) (cur : Word) (h : s.expiryEnabled e = true)
    (hp : s.pinValue (s.dbAt e.toNat).pin = some cur) :
    execDbExpire e s = .next ((s.setDb e.toNat ((s.dbAt e.toNat).expired cur)).emit
      ((s.dbAt e.toNat).expiryEvents cur e)) := by
  simp [execDbExpire, h, hp]

/-- What DB_EXPIRE needs to answer a next state, and which (R206). -/
theorem execDbExpire_next (e : Byte) (s t : State) (h : execDbExpire e s = .next t) :
    s.expiryEnabled e = true ∧ ∃ cur, s.pinValue (s.dbAt e.toNat).pin = some cur ∧
      t = (s.setDb e.toNat ((s.dbAt e.toNat).expired cur)).emit ((s.dbAt e.toNat).expiryEvents cur e) := by
  unfold execDbExpire at h
  split at h
  · cases h
  · rename_i he
    refine ⟨by simpa using he, ?_⟩
    dsimp only at h
    split at h
    · cases h
    · rename_i cur hc
      exact ⟨cur, hc, by cases h; rfl⟩

/-! ### Selection (R15, R207, R270) -/

/-- The command port never delivers the timebase's label (R103). -/
theorem decodePort_onPort (bytes rest : List Byte) (i : Instr) (h : decodePort bytes = .command i rest) :
    i.onPort = true := by
  cases bytes with
  | nil => cases h
  | cons op r =>
    simp only [decodePort] at h
    split at h
    · cases h
    · rename_i hop
      cases i with
      | dbExpire e =>
        exfalso
        have hn : op.toNat ≠ 0x32 := fun hn => hop (BitVec.eq_of_toNat_eq hn)
        simp only [decodeOp] at h
        split at h <;>
          (try simp only [withNone, withU8, withU32, withList, withU32List, withU8U32, withU8U8U32, withU8U8U8] at h) <;>
          (repeat' split at h) <;> simp_all
      | _ => rfl

theorem State.chosenExpiry_enabled (s : State) (e : Byte) (h : s.chosenExpiry = some e) :
    s.expiryEnabled e = true := by
  unfold State.chosenExpiry at h
  split at h
  · cases h
  · split at h
    · cases h
    · split at h
      · rename_i he
        cases h
        exact he
      · cases h

theorem earliest_mem (before : Byte → Byte → Bool) (l : List Byte) (e : Byte) (h : earliest before l = some e) :
    e ∈ l := by
  induction l generalizing e with
  | nil => cases h
  | cons a l ih =>
    simp only [earliest] at h
    split at h
    · cases h; simp
    · rename_i b hb
      cases h
      split
      · simp
      · exact List.mem_cons_of_mem _ (ih b hb)

theorem earliest_isSome (before : Byte → Byte → Bool) (l : List Byte) (h : l ≠ []) :
    ∃ e, earliest before l = some e := by
  cases l with
  | nil => exact absurd rfl h
  | cons a l =>
    simp only [earliest]
    split <;> exact ⟨_, rfl⟩

/-- What the block can select: an enabled expiry, a host operation read from the port, a reserved op byte of the port,
or nothing. -/
theorem State.select_cases (s : State) :
    (∃ e, s.select = .expiry e ∧ s.expiryEnabled e = true) ∨
    (∃ i rest, s.select = .command i rest ∧ decodePort s.port = .command i rest ∧ i.onPort = true) ∨
    (∃ op rest, s.select = .reserved rest ∧ decodePort s.port = .reserved op rest) ∨
    (s.select = .idle ∧ decodePort s.port = .incomplete ∧ s.pendingExpiries = []) := by
  unfold State.select
  split
  · rename_i e he
    exact .inl ⟨e, rfl, s.chosenExpiry_enabled e he⟩
  · split
    · rename_i i rest hd
      exact .inr (.inl ⟨i, rest, rfl, hd, decodePort_onPort _ _ _ hd⟩)
    · rename_i op rest hd
      exact .inr (.inr (.inl ⟨op, rest, rfl, hd⟩))
    · rename_i hd
      split
      · rename_i e he
        exact .inl ⟨e, rfl, (s.mem_pendingExpiries e).mp (earliest_mem _ _ _ he)⟩
      · rename_i he
        refine .inr (.inr (.inr ⟨rfl, hd, ?_⟩))
        by_contra hn
        obtain ⟨e, hs⟩ := earliest_isSome s.expiresBefore _ hn
        rw [hs] at he
        cases he

/-- What one step of the block is. -/
theorem step_cases (s : State) :
    (∃ e, s.expiryEnabled e = true ∧ step s = exec (.dbExpire e) s.advance) ∨
    (∃ i rest, i.onPort = true ∧ decodePort s.port = .command i rest ∧ step s = exec i (s.fetched rest)) ∨
    (∃ op rest, decodePort s.port = .reserved op rest ∧ step s = illegalOp (s.fetched rest)) ∨
    step s = .next s := by
  unfold step
  rcases s.select_cases with ⟨e, h, he⟩ | ⟨i, rest, h, hd, hp⟩ | ⟨op, rest, h, hd⟩ | ⟨h, _, _⟩ <;> rw [h]
  · exact .inl ⟨e, he, rfl⟩
  · exact .inr (.inl ⟨i, rest, hp, hd, rfl⟩)
  · exact .inr (.inr (.inl ⟨op, rest, hd, rfl⟩))
  · exact .inr (.inr (.inr rfl))

end Sys2Proof.Machine
end

