-- ==== Sys2Proof/Laws/PerInstr.lean ====
section
/-! SUPPORT. A statement about every operation as syntax, one lemma per constructor: the size of its serialised form
(30_encoding.md R100, R101). -/

namespace Sys2Proof.Laws.Opcode

/-- How many operand bytes follow the op byte: the widths of R100 and R102, a list with its two length bytes (R101). -/
def operandWidth : Instr → Nat
  | .frame _ payload => 6 + payload.length
  | .parse buf => 2 + buf.length
  | .toData _ => 4
  | .toValue payload => 2 + payload.length
  | .strToData str => 2 + str.length
  | .toString payload => 2 + payload.length
  | .rxPush _ => 1
  | .rxStep => 0
  | .pinChange _ _ => 5
  | .tick => 0
  | .dbCreate _ _ _ => 6
  | .dbRemove _ => 1
  | .dbExpire _ => 1
  | .encCreate _ _ _ => 3
  | .encRemove _ => 1
  | .encRead _ => 1
  | .readReg _ => 1
  | .reset => 0

/-- The serialised form is the operation's op byte and then its operands, nothing more. -/
def Statement (i : Instr) : Prop :=
  (encode i).head? = some i.opcode ∧ (encode i).length = 1 + operandWidth i

theorem frame (id : Word) (payload : List Byte) : Statement (.frame id payload) := by
  simp [Statement, encode, Instr.opcode, Instr.operandBytes, operandWidth, bytesOfU32, bytesOfList]; omega

theorem parse (buf : List Byte) : Statement (.parse buf) := by
  simp [Statement, encode, Instr.opcode, Instr.operandBytes, operandWidth, bytesOfList]; omega

theorem toData (v : Word) : Statement (.toData v) := by
  simp [Statement, encode, Instr.opcode, Instr.operandBytes, operandWidth, bytesOfU32]

theorem toValue (payload : List Byte) : Statement (.toValue payload) := by
  simp [Statement, encode, Instr.opcode, Instr.operandBytes, operandWidth, bytesOfList]; omega

theorem strToData (str : List Byte) : Statement (.strToData str) := by
  simp [Statement, encode, Instr.opcode, Instr.operandBytes, operandWidth, bytesOfList]; omega

theorem toString (payload : List Byte) : Statement (.toString payload) := by
  simp [Statement, encode, Instr.opcode, Instr.operandBytes, operandWidth, bytesOfList]; omega

theorem rxPush (b : Byte) : Statement (.rxPush b) := by
  simp [Statement, encode, Instr.opcode, Instr.operandBytes, operandWidth]

theorem rxStep : Statement .rxStep := by
  simp [Statement, encode, Instr.opcode, Instr.operandBytes, operandWidth]

theorem pinChange (p : Byte) (v : Word) : Statement (.pinChange p v) := by
  simp [Statement, encode, Instr.opcode, Instr.operandBytes, operandWidth, bytesOfU32]

theorem tick : Statement .tick := by
  simp [Statement, encode, Instr.opcode, Instr.operandBytes, operandWidth]

theorem dbCreate (e : Byte) (pin : Byte) (delay : Word) : Statement (.dbCreate e pin delay) := by
  simp [Statement, encode, Instr.opcode, Instr.operandBytes, operandWidth, bytesOfU32]

theorem dbRemove (e : Byte) : Statement (.dbRemove e) := by
  simp [Statement, encode, Instr.opcode, Instr.operandBytes, operandWidth]

theorem dbExpire (e : Byte) : Statement (.dbExpire e) := by
  simp [Statement, encode, Instr.opcode, Instr.operandBytes, operandWidth]

theorem encCreate (e : Byte) (pin1 : Byte) (pin2 : Byte) : Statement (.encCreate e pin1 pin2) := by
  simp [Statement, encode, Instr.opcode, Instr.operandBytes, operandWidth]

theorem encRemove (e : Byte) : Statement (.encRemove e) := by
  simp [Statement, encode, Instr.opcode, Instr.operandBytes, operandWidth]

theorem encRead (e : Byte) : Statement (.encRead e) := by
  simp [Statement, encode, Instr.opcode, Instr.operandBytes, operandWidth]

theorem readReg (r : Byte) : Statement (.readReg r) := by
  simp [Statement, encode, Instr.opcode, Instr.operandBytes, operandWidth]

theorem reset : Statement .reset := by
  simp [Statement, encode, Instr.opcode, Instr.operandBytes, operandWidth]

end Sys2Proof.Laws.Opcode
end

