-- ==== Sys2Proof/Laws/Wire.lean ====
section
/-! SUPPORT. What parsing, the 7-bit groups and the string pairs do, said once. -/

namespace Sys2Proof.Machine

/-! ### Byte classes and the standard ids -/

theorem isData_iff (b : Byte) : isData b = true ↔ b.toNat < 0x80 := by simp [isData]

theorem isNoise_iff (c : Config) (b : Byte) :
    isNoise c b = true ↔ 0x80 ≤ b.toNat ∧ b ≠ 0xF0#8 ∧ b ≠ 0xF7#8 ∧ c.isStdId b = false := by
  simp [isNoise, isData, sysexStart, sysexEnd, and_assoc]

theorem lookupStd_mem (b : Byte) (n : Nat) (l : List (Byte × Nat)) (h : lookupStd b l = some n) : (b, n) ∈ l := by
  induction l with
  | nil => cases h
  | cons x l ih =>
    simp only [lookupStd] at h
    split at h
    · rename_i hx
      cases h
      subst hx
      simp
    · exact List.mem_cons_of_mem _ (ih h)

/-- A standard id of legal parameters is a status byte, no marker, and its payload has at most two bytes
(R85, R87). -/
theorem Config.std_of_wf {c : Config} (hc : c.wf = true) {b : Byte} (h : c.isStdId b = true) :
    0x80 ≤ b.toNat ∧ b ≠ 0xF0#8 ∧ b ≠ 0xF7#8 ∧ c.stdPayloadLen b ≤ 2 := by
  obtain ⟨n, hn⟩ := Option.isSome_iff_exists.mp h
  have hm := lookupStd_mem b n _ hn
  have hall : c.stdIds.all stdEntryWf = true := by
    simp only [Config.wf, Bool.and_eq_true] at hc
    exact hc.1.1.2
  have := List.all_eq_true.mp hall _ hm
  simp only [stdEntryWf, Bool.and_eq_true, decide_eq_true_eq, bne_iff_ne] at this
  exact ⟨this.1.1.1, this.1.1.2, this.1.2, by simpa [Config.stdPayloadLen, hn] using this.2⟩

/-! ### Identifiers (R83) -/

/-- `Shape` over the id's number: R83's table as ranges and remainders. -/
theorem shapeOf_nat (id : Word) :
    shapeOf id =
      if id.toNat / 256 = 0 ∧ id.toNat / 128 % 2 = 1 ∧ id.toNat % 256 ≠ 0xF0 ∧ id.toNat % 256 ≠ 0xF7 then
        .std (BitVec.ofNat 8 id.toNat)
      else if id.toNat / 256 = 0xF0 ∧ id.toNat / 128 % 2 = 0 ∧ id.toNat % 128 ≠ 0 then
        .sysex (BitVec.ofNat 8 id.toNat)
      else if id.toNat / 65536 = 0xF0 ∧ id.toNat / 16384 % 4 = 0 then .ext (BitVec.ofNat 14 id.toNat)
      else .invalid := by
  have hid := id.isLt
  have hlow : id.extractLsb' 0 8 = BitVec.ofNat 8 id.toNat := BitVec.eq_of_toNat_eq (by simp)
  have hbit : id.getLsbD 7 = decide (id.toNat / 128 % 2 = 1) := by
    rw [BitVec.getLsbD, Nat.testBit_eq_decide_div_mod_eq]
  have h8 : id.toNat >>> 8 = id.toNat / 256 := by rw [Nat.shiftRight_eq_div_pow]
  have h14 : id.toNat >>> 14 = id.toNat / 16384 := by rw [Nat.shiftRight_eq_div_pow]
  have h16 : id.toNat >>> 16 = id.toNat / 65536 := by rw [Nat.shiftRight_eq_div_pow]
  simp only [shapeOf, hlow, hbit, sysexStart, sysexEnd, ← BitVec.toNat_inj, BitVec.extractLsb'_toNat, h8, h14, h16,
    BitVec.toNat_ofNat, Nat.shiftRight_zero, ne_eq, decide_eq_true_eq, decide_eq_false_iff_not,
    show BitVec.extractLsb' 0 14 id = BitVec.ofNat 14 id.toNat from BitVec.eq_of_toNat_eq (by simp)]
  have e1 : id.toNat / 256 % 2 ^ 24 = id.toNat / 256 := by omega
  have e2 : id.toNat / 65536 % 2 ^ 16 = id.toNat / 65536 := by omega
  rw [e1, e2]
  simp only [show ∀ n : Nat, (¬ n % 2 = 1) ↔ n % 2 = 0 from fun n => by omega, Nat.reduceMod, Nat.reducePow]

/-- The three forms of id as numbers. -/
theorem sysexId_toNat (t : Byte) (h : t.toNat < 0x80) : (0x0000F000#32 ||| t.setWidth 32).toNat = 0xF000 + t.toNat := by
  have hor := Nat.two_pow_add_eq_or_of_lt (i := 7) (b := t.toNat) (by omega) 480
  rw [BitVec.toNat_or, BitVec.toNat_setWidth, Nat.mod_eq_of_lt (by omega)]
  exact hor.symm

theorem extId_toNat (x : BitVec 14) : (0x00F00000#32 ||| x.setWidth 32).toNat = 0xF00000 + x.toNat := by
  have hx := x.isLt
  have hor := Nat.two_pow_add_eq_or_of_lt (i := 14) (b := x.toNat) (by omega) 960
  rw [BitVec.toNat_or, BitVec.toNat_setWidth, Nat.mod_eq_of_lt (by omega)]
  exact hor.symm

/-! ### The leading data bytes of a list -/

/-- A list cut at its first byte that is no data byte. -/
theorem span_data (l : List Byte) :
    ∃ data tail, l = data ++ tail ∧ (∀ x ∈ data, isData x = true) ∧ l.takeWhile isData = data ∧
      (tail = [] ∨ ∃ x r, tail = x :: r ∧ isData x = false) := by
  induction l with
  | nil => exact ⟨[], [], rfl, by simp, rfl, .inl rfl⟩
  | cons a l ih =>
    cases ha : isData a with
    | true =>
      obtain ⟨data, tail, h1, h2, h3, h4⟩ := ih
      refine ⟨a :: data, tail, by rw [h1, List.cons_append], fun x hx => ?_, by simp [ha, h3], h4⟩
      rcases List.mem_cons.mp hx with rfl | hx
      · exact ha
      · exact h2 x hx
    | false => exact ⟨[], a :: l, rfl, by simp, by simp [ha], .inr ⟨a, l, rfl, ha⟩⟩

theorem takeWhile_data (data tail : List Byte) (h : ∀ x ∈ data, isData x = true)
    (ht : tail = [] ∨ ∃ x r, tail = x :: r ∧ isData x = false) : (data ++ tail).takeWhile isData = data := by
  rw [List.takeWhile_append_of_pos h]
  rcases ht with rfl | ⟨x, r, rfl, hx⟩
  · simp
  · simp [hx]

/-! ### PARSE (R124 to R129) -/

/-- Without leading noise nothing is skipped. -/
theorem noiseSkip_zero (c : Config) (b : Byte) (l : List Byte) (h : isNoise c b = false) : noiseSkip c (b :: l) = 0 := by
  simp [noiseSkip, h]

theorem noiseSkip_append (c : Config) (noise buf : List Byte) (h : ∀ b ∈ noise, isNoise c b = true) :
    noiseSkip c (noise ++ buf) = noise.length + noiseSkip c buf := by
  simp only [noiseSkip]
  rw [List.takeWhile_append_of_pos h, List.length_append]

/-- A buffer cut behind its leading noise. -/
theorem span_noise (c : Config) (buf : List Byte) :
    ∃ noise tail, buf = noise ++ tail ∧ (∀ b ∈ noise, isNoise c b = true) ∧
      (tail = [] ∨ ∃ b r, tail = b :: r ∧ isNoise c b = false) := by
  induction buf with
  | nil => exact ⟨[], [], rfl, by simp, .inl rfl⟩
  | cons a l ih =>
    cases ha : isNoise c a with
    | true =>
      obtain ⟨noise, tail, h1, h2, h3⟩ := ih
      refine ⟨a :: noise, tail, by rw [h1, List.cons_append], fun x hx => ?_, h3⟩
      rcases List.mem_cons.mp hx with rfl | hx
      · exact ha
      · exact h2 x hx
    | false => exact ⟨[], a :: l, rfl, by simp, .inr ⟨a, l, rfl, ha⟩⟩

/-- `Parse` from a lead byte that is not noise. -/
theorem parse_lead (c : Config) (b : Byte) (body : List Byte) (h : isNoise c b = false) :
    parse c (b :: body) =
      if shortBuffer c b (body.length + 1) then .needMore 0
      else if c.isStdId b then parseStd c 0 b body
      else if b = sysexStart then parseSysex 0 body
      else .malformed 0 1 := by
  simp [parse, noiseSkip_zero c b body h]

/-- A verdict with `n` more noise bytes before it. -/
def Verdict.shift (n : Nat) : Verdict → Verdict
  | .msg k l id p => .msg (n + k) l id p
  | .needMore k => .needMore (n + k)
  | .malformed k l => .malformed (n + k) l

theorem parseStd_shift (c : Config) (n s : Nat) (b : Byte) (body : List Byte) :
    parseStd c (n + s) b body = (parseStd c s b body).shift n := by
  simp only [parseStd]
  split <;> rfl

theorem parseSysex_shift (n s : Nat) (body : List Byte) : parseSysex (n + s) body = (parseSysex s body).shift n := by
  simp only [parseSysex]
  split
  · rfl
  · split
    · rfl
    · split
      · rfl
      · simp only [sysexVerdict]
        split
        · rfl
        · split
          · rfl
          · split <;> rfl

/-- Leading noise only adds to the skip (R125). -/
theorem parse_noise (c : Config) (noise buf : List Byte) (h : ∀ b ∈ noise, isNoise c b = true) :
    parse c (noise ++ buf) = (parse c buf).shift noise.length := by
  have hd : (noise ++ buf).drop (noise.length + noiseSkip c buf) = buf.drop (noiseSkip c buf) := by
    rw [← List.drop_drop, List.drop_left]
  simp only [parse, noiseSkip_append c noise buf h, hd]
  split
  · rfl
  · split
    · rfl
    · split
      · exact parseStd_shift _ _ _ _ _
      · split
        · exact parseSysex_shift _ _ _
        · rfl

/-- Nothing but noise, or nothing at all (R124). -/
theorem parse_nil (c : Config) : parse c [] = .needMore 0 := rfl

/-- The rest of a sysex frame after 0xF0, cut at its first status byte (R128). -/
theorem parseSysex_cut (data tail : List Byte) (h : ∀ x ∈ data, isData x = true)
    (ht : tail = [] ∨ ∃ x r, tail = x :: r ∧ isData x = false) :
    parseSysex 0 (data ++ tail) =
      if (data ++ tail).head? = some 0x00#8 ∧ (data ++ tail).length < 3 then .needMore 0
      else
        match (generalizing := false) tail with
        | [] => .needMore 0
        | e :: _ => if e ≠ sysexEnd then .malformed 0 (data.length + 1) else sysexVerdict 0 (data.length + 2) data := by
  simp only [parseSysex, takeWhile_data data tail h ht, List.drop_left]
  all_goals cases tail <;> rfl

/-! ### Integers (R130, R133) -/

theorem groupSum_moreGroups (fuel r : Nat) (h : r < 128 ^ fuel) : groupSum (moreGroups fuel r) = r := by
  induction fuel generalizing r with
  | zero => simp at h; subst h; rfl
  | succ n ih =>
    unfold moreGroups
    split
    · rename_i h0
      simp [groupSum, h0]
    · rw [groupSum, ih (r / 128) (by rw [Nat.pow_succ] at h; omega), BitVec.toNat_ofNat]
      omega

/-- The groups of a value sum to it. -/
theorem groupSum_toDataBytes (v : Word) : groupSum (toDataBytes v) = v.toNat := by
  have hv := v.isLt
  rw [toDataBytes, groupSum, groupSum_moreGroups 4 _ (by omega), BitVec.toNat_ofNat]
  omega

/-- The Horner sum is the literal sum of R133. -/
theorem groupSum_eq_sum (p : List Byte) :
    groupSum p = ((List.range p.length).map fun i => (p.getD i 0).toNat * 2 ^ (7 * i)).sum := by
  induction p with
  | nil => rfl
  | cons b p ih =>
    rw [groupSum, ih, List.length_cons, List.range_succ_eq_map, List.map_cons, List.sum_cons, List.map_map]
    simp only [List.getD_cons_zero, Nat.mul_zero, Nat.pow_zero, Nat.mul_one, Function.comp_def, List.getD_cons_succ]
    congr 1
    rw [← List.sum_map_mul_left]
    congr 1
    refine List.map_congr_left fun i _ => ?_
    rw [Nat.mul_succ, Nat.pow_add]
    ring

/-- Trailing groups: the minimal ones of a sum of data bytes whose last byte is not zero. -/
theorem moreGroups_groupSum (fuel : Nat) (p : List Byte) (hd : ∀ b ∈ p, b.toNat < 128) (hl : p.getLast? ≠ some 0x00#8)
    (hn : p.length ≤ fuel) : moreGroups fuel (groupSum p) = p := by
  induction fuel generalizing p with
  | zero =>
    cases p with
    | nil => rfl
    | cons b p => simp at hn
  | succ n ih =>
    cases p with
    | nil => simp [groupSum, moreGroups]
    | cons b p =>
      have hb := hd b (by simp)
      have hpos : groupSum (b :: p) ≠ 0 := by
        clear ih hn
        intro h0
        induction p generalizing b with
        | nil =>
          simp only [groupSum] at h0
          exact hl (by rw [show b = 0#8 from BitVec.eq_of_toNat_eq (by simp; omega)]; rfl)
        | cons a p ihp =>
          have h1 : groupSum (a :: p) = 0 := by rw [groupSum] at h0; omega
          exact ihp a (fun x hx => hd x (List.mem_cons_of_mem _ hx)) (by simpa using hl) (hd a (by simp)) h1
      have hm : groupSum (b :: p) % 128 = b.toNat := by rw [groupSum]; omega
      have hq : groupSum (b :: p) / 128 = groupSum p := by rw [groupSum]; omega
      rw [moreGroups, if_neg hpos, hm, hq, ih p (fun x hx => hd x (List.mem_cons_of_mem _ hx)) ?_ (by simpa using hn)]
      · simp
      · intro hp
        apply hl
        cases p with
        | nil => simp at hp
        | cons a p => simpa using hp

theorem moreGroups_data (fuel r : Nat) : ∀ b ∈ moreGroups fuel r, b.toNat < 128 := by
  induction fuel generalizing r with
  | zero => simp [moreGroups]
  | succ n ih =>
    intro b hb
    unfold moreGroups at hb
    split at hb
    · simp at hb
    · rcases List.mem_cons.mp hb with rfl | hb
      · rw [BitVec.toNat_ofNat]; omega
      · exact ih _ b hb

/-! ### Strings (R136, R138) -/

theorem toStringBytes_strToDataBytes (str : List Byte) : toStringBytes (strToDataBytes str) = str := by
  induction str with
  | nil => rfl
  | cons ch str ih =>
    rw [strToDataBytes, toStringBytes, ih]
    congr 1
    revert ch
    decide +kernel

end Sys2Proof.Machine
end

