-- ==== Sys2Proof/Tests/Slice0.lean ====
section
/-! SUPPORT. Tests of the model against spec/95_test_vectors.md, words written out from spec/30_encoding.md, what the
well-formedness checks refuse, and for each statement with hypotheses a witness that meets them. -/

open Sys2Proof Sys2Proof.Machine

namespace Sys2Proof.Tests

/-! ### Helpers -/

/-- What an outcome's next state has in `result`. -/
def resultOf : Out → Option Result
  | .next t => some t.result
  | .fault _ => none
  | .refused _ => none

/-- The events an outcome's next state has. -/
def eventsOf : Out → Option (List Event)
  | .next t => some t.events
  | .fault _ => none
  | .refused _ => none

/-- The receive buffer, the two counters and the events of an outcome's next state. -/
def rxOf : Out → Option (List Byte × Word × Word × List Event)
  | .next t => some (t.rxbuf, t.droppedCount, t.overflowCount, t.events)
  | .fault _ => none
  | .refused _ => none

/-- Debounce slot `e` of an outcome's next state. -/
def dbOf (e : Nat) : Out → Option DbEntry
  | .next t => some (t.dbAt e)
  | .fault _ => none
  | .refused _ => none

/-- Encoder slot `e` of an outcome's next state. -/
def encOf (e : Nat) : Out → Option EncEntry
  | .next t => some (t.encAt e)
  | .fault _ => none
  | .refused _ => none

/-- The status and data an operation gives. -/
def res (st : Status) (d : ResultData) : Option Result := some { status := st, data := d }

/-- A state with bytes held. -/
def holding (cap : Option Nat) (l : List Byte) : State :=
  { State.powerOn { defaultConfig with rxCap := cap } with rxbuf := l }

/-- Pins 0 and 1 low, pin 3 at 1, the rest unknown; two debounce entries with their delay elapsed; an encoder on pins 0
and 1 with the accumulator `st`. -/
def sample (st : Option Phase) : State :=
  { State.reset with
    pinState := [some 0, some 0, none, some 1, none, none, none, none]
    now := 80
    nextSeq := 3
    db := [{ valid := true, pin := 3, delay := 2, last := some 0, armed := true, deadline := 80, seq := 0 },
           { valid := true, pin := 0, delay := 5, last := none, armed := true, deadline := 79, seq := 1 },
           DbEntry.reset, DbEntry.reset]
    enc := [{ valid := true, pin1 := 0, pin2 := 1, step := st, count := 0x7FFFFFFF, seq := 2 },
            EncEntry.reset, EncEntry.reset, EncEntry.reset] }

/-- The sample state has the invariant. -/
theorem sample_inv (st : Option Phase) : (sample st).Inv := by
  refine ⟨rfl, ⟨rfl, rfl, rfl⟩, fun c h => (by cases h), fun _ => rfl, ?_, ?_, by show [0, 1, 2].Nodup; decide⟩
  · intro d hd
    simp only [sample, List.mem_cons, List.not_mem_nil, or_false] at hd
    rcases hd with rfl | rfl | rfl | rfl
    · exact ⟨fun h => (by cases h), fun _ => (by decide : 3 < 8), fun _ => rfl, fun _ => (by decide : 0 < 3)⟩
    · exact ⟨fun h => (by cases h), fun _ => (by decide : 0 < 8), fun _ => rfl, fun _ => (by decide : 1 < 3)⟩
    · exact DbEntry.reset_sound _
    · exact DbEntry.reset_sound _
  · intro x hx
    simp only [sample, List.mem_cons, List.not_mem_nil, or_false] at hx
    rcases hx with rfl | rfl | rfl | rfl
    · exact ⟨fun h => (by cases h), fun _ => (by decide : 0 < 8 ∧ 1 < 8), fun _ => (by decide : 0 ≠ 1),
        fun _ => ⟨rfl, rfl⟩, fun _ => (by decide : 2 < 3)⟩
    · exact EncEntry.reset_sound _
    · exact EncEntry.reset_sound _
    · exact EncEntry.reset_sound _

/-! ### What the well-formedness checks refuse (R7, R101) -/

/-- One byte more than a 16-bit length can name. -/
def tooLong : List Byte := List.replicate 65536 0

theorem tooLong_misfits : listFits tooLong = false := by
  rw [listFits, tooLong, List.length_replicate]
  rfl

theorem test_wf_frame : (Instr.frame 0x90 tooLong).wf = false := tooLong_misfits
theorem test_wf_parse : (Instr.parse tooLong).wf = false := tooLong_misfits
theorem test_wf_toValue : (Instr.toValue tooLong).wf = false := tooLong_misfits
theorem test_wf_strToData : (Instr.strToData tooLong).wf = false := tooLong_misfits
theorem test_wf_toString : (Instr.toString tooLong).wf = false := tooLong_misfits
theorem test_wf_longest : (Instr.parse (List.replicate 65535 0)).wf = true := by
  rw [Instr.wf, listFits, List.length_replicate]
  rfl
theorem test_wf_default : defaultConfig.wf = true := by decide
theorem test_wf_nPins : { defaultConfig with nPins := 0 }.wf = false ∧ { defaultConfig with nPins := 129 }.wf = false := by
  decide
theorem test_wf_nDb : { defaultConfig with nDb := 0 }.wf = false ∧ { defaultConfig with nDb := 257 }.wf = false := by
  decide
theorem test_wf_nEnc : { defaultConfig with nEnc := 0 }.wf = false ∧ { defaultConfig with nEnc := 257 }.wf = false := by
  decide
theorem test_wf_rxCap : { defaultConfig with rxCap := some 3 }.wf = false ∧
    { defaultConfig with rxCap := some 4 }.wf = true := by decide
theorem test_wf_stdMarker : { defaultConfig with stdIds := [(0xF0, 2)] }.wf = false ∧
    { defaultConfig with stdIds := [(0xF7, 2)] }.wf = false := by decide
theorem test_wf_stdData : { defaultConfig with stdIds := [(0x7F, 2)] }.wf = false := by decide
theorem test_wf_stdLength : { defaultConfig with stdIds := [(0x90, 3)] }.wf = false := by decide
theorem test_wf_stdTwice : { defaultConfig with stdIds := [(0x90, 2), (0x90, 1)] }.wf = false := by decide
theorem test_wf_tick : { defaultConfig with tickPeriodMs := 0 }.wf = false := by decide

/-! ### Decoding: words written out from R100 and R101 (programs P1 to P4 where they have the line) -/

theorem test_decode_frame : decodePort [0x01, 0xE5, 0x00, 0x00, 0x00, 0x02, 0x00, 0x2C, 0x02] =
    .command (.frame 0x000000E5 [0x2C, 0x02]) [] := by decide
theorem test_decode_parse : decodePort [0x02, 0x03, 0x00, 0xE5, 0x2C, 0x02] = .command (.parse [0xE5, 0x2C, 0x02]) [] := by
  decide
theorem test_decode_toData : decodePort [0x03, 0x78, 0x56, 0x34, 0x12] = .command (.toData 0x12345678) [] := by decide
theorem test_decode_toValue : decodePort [0x04, 0x02, 0x00, 0x2C, 0x02] = .command (.toValue [0x2C, 0x02]) [] := by decide
theorem test_decode_strToData : decodePort [0x05, 0x02, 0x00, 0x48, 0x69] = .command (.strToData [0x48, 0x69]) [] := by
  decide
theorem test_decode_toString : decodePort [0x06, 0x05, 0x00, 0x48, 0x00, 0x69, 0x00, 0x21] =
    .command (.toString [0x48, 0x00, 0x69, 0x00, 0x21]) [] := by decide
theorem test_decode_rxPush : decodePort [0x10, 0xF7] = .command (.rxPush 0xF7) [] := by decide
theorem test_decode_rxStep : decodePort [0x11, 0x50, 0x01] = .command .rxStep [0x50, 0x01] := by decide
theorem test_decode_pinChange : decodePort [0x20, 0x03, 0x04, 0x03, 0x02, 0x01] = .command (.pinChange 3 0x01020304) [] := by
  decide
theorem test_decode_tick : decodePort [0x21] = .command .tick [] := by decide
theorem test_decode_dbCreate : decodePort [0x30, 0x01, 0x03, 0x32, 0x01, 0x00, 0x00] = .command (.dbCreate 1 3 0x132) [] := by
  decide
theorem test_decode_dbRemove : decodePort [0x31, 0x01] = .command (.dbRemove 1) [] := by decide
theorem test_decode_dbExpire : decode [0x32, 0x01] = .command (.dbExpire 1) [] := by decide
theorem test_decode_encCreate : decodePort [0x40, 0x02, 0x00, 0x01] = .command (.encCreate 2 0 1) [] := by decide
theorem test_decode_encRemove : decodePort [0x41, 0x02] = .command (.encRemove 2) [] := by decide
theorem test_decode_encRead : decodePort [0x42, 0x00] = .command (.encRead 0) [] := by decide
theorem test_decode_readReg : decodePort [0x50, 0x09] = .command (.readReg 9) [] := by decide
theorem test_decode_reset : decodePort [0x7F] = .command .reset [] := by decide

/-- 0x32 on the port and bytes outside the table are reserved, alone (R103, R265). -/
theorem test_decode_reserved : decodePort [0x32, 0x01] = .reserved 0x32 [0x01] ∧ decodePort [0x00] = .reserved 0x00 [] ∧
    decodePort [0xFF, 0x01] = .reserved 0xFF [0x01] ∧ decodePort [0x07] = .reserved 0x07 [] := by decide

/-- A list length with a high byte: 256 bytes are asked for (R101), and a cut command is not delivered (R265). -/
theorem test_decode_cut : decodePort [0x04, 0x00, 0x01, 0x2C] = .incomplete ∧ decodePort [0x20, 0x03, 0x01, 0x00, 0x00] = .incomplete ∧
    decodePort [] = .incomplete := by decide

/-- Words of the opcode table, operand bits at zero. -/
theorem test_table_words : decodeTableWord 8 0x01 = some (.frame 0 []) ∧ decodeTableWord 8 0x7F = some .reset ∧
    decodeTableWord 8 0x32 = some (.dbExpire 0) ∧ decodeTableWord 48 0x000000010320 = some (.pinChange 3 1) ∧
    decodeTableWord 8 0x08 = none := by decide

/-! ### Instructions: the vectors of 95_test_vectors.md -/

/-- 2.1. -/
theorem test_frame : resultOf (exec (.frame 0x0000F069 [0x80]) State.reset) = res .ok (.bytes [0xF0, 0x69, 0x80, 0xF7]) ∧
    resultOf (exec (.frame 0x00F00123 [0x01]) State.reset) = res .ok (.bytes [0xF0, 0x00, 0x23, 0x02, 0x01, 0xF7]) ∧
    resultOf (exec (.frame 0x00F03FFF [0x10]) State.reset) = res .ok (.bytes [0xF0, 0x00, 0x7F, 0x7F, 0x10, 0xF7]) := by
  decide +kernel

/-- 2.1: the ids that have no shape. -/
theorem test_frame_invalid : [0x0000F000, 0x00000005, 0x000000F0, 0x000000F7, 0x0000F080, 0x00F04000, 0x01000090].map
    (fun id : Word => resultOf (exec (.frame id []) State.reset)) = List.replicate 7 (res .invalidId .empty) := by
  decide +kernel

/-- 2.2: verdicts MSG. -/
theorem test_parse : parse defaultConfig [0x81, 0xF0, 0x69, 0xF7] = .msg 1 3 0x0000F069 [] ∧
    parse defaultConfig [0xF0, 0x00, 0x7F, 0x7F, 0x10, 0xF7] = .msg 0 6 0x00F03FFF [0x10] ∧
    parse defaultConfig [0xE5, 0x7F, 0x7F] = .msg 0 3 0x000000E5 [0x7F, 0x7F] ∧
    parse { defaultConfig with stdIds := [(0xFF, 0)] } [0xFF, 0x05] = .msg 0 1 0x000000FF [] := by decide +kernel

/-- 2.2: verdicts MALFORMED and NEED_MORE. -/
theorem test_parse_other : parse defaultConfig [0xF0, 0x00, 0x23, 0xF7] = .malformed 0 4 ∧
    parse defaultConfig [0xF0, 0x69, 0x01, 0x90, 0x05, 0x00] = .malformed 0 3 ∧
    parse defaultConfig [0x90, 0x05, 0xE0] = .malformed 0 2 ∧ parse defaultConfig [0xF7, 0x90, 0x05, 0x00] = .malformed 0 1 ∧
    parse defaultConfig [0xF0, 0x00, 0xF7] = .needMore 0 ∧ parse defaultConfig [0x81, 0x82, 0x83] = .needMore 3 ∧
    parse defaultConfig [0xF7] = .needMore 0 := by decide +kernel

/-- 2.3. -/
theorem test_toData : [0, 127, 128, 300, 0x0FFFFFFF, 0x10000000, 0x12345678].map toDataBytes =
    [[0x00], [0x7F], [0x00, 0x01], [0x2C, 0x02], [0x7F, 0x7F, 0x7F, 0x7F], [0x00, 0x00, 0x00, 0x00, 0x01],
      [0x78, 0x2C, 0x51, 0x11, 0x01]] := by decide +kernel

/-- 2.3. -/
theorem test_toValue : [[], [0x2C, 0x02], [0x05, 0x00, 0x00], [0x7F, 0x7F, 0x7F, 0x7F, 0x7F], [0x00, 0x00, 0x00, 0x00, 0x00, 0x01],
    [0x80, 0x01]].map toValueWord = [0, 300, 5, 0xFFFFFFFF, 0, 256] := by decide +kernel

/-- 2.4. -/
theorem test_strToData : [[], [0x48, 0x69], [0xE9], [0xFF]].map strToDataBytes =
    [[], [0x48, 0x00, 0x69, 0x00], [0x69, 0x01], [0x7F, 0x01]] := by decide +kernel

/-- 2.4 and S5. -/
theorem test_toString : [[0x48], [0x48, 0x00, 0x69], [0x7F, 0x7F], [0x80, 0x00], [0x80, 0x01]].map toStringBytes =
    [[], [0x48], [0xFF], [0x80], [0x00]] := by decide +kernel

/-- 2.5, with RX_CAP = 4: room for one, and full. -/
theorem test_rxPush : rxOf (exec (.rxPush 0x03) (holding (some 4) [0xF0, 0x01, 0x02])) =
      some ([0xF0, 0x01, 0x02, 0x03], 0, 0, []) ∧
    rxOf (exec (.rxPush 0x90) (holding (some 4) [0xF0, 0x01, 0x02, 0x03])) = some ([0x90], 4, 1, [.dropped 4]) ∧
    resultOf (exec (.rxPush 0x90) (holding (some 4) [0xF0, 0x01, 0x02, 0x03])) = res .overflow (.flushed 4) := by
  decide +kernel

/-- 2.5. -/
theorem test_rxStep : [[0x81, 0xF0, 0x69, 0xF7], [0xF0, 0x69, 0x01, 0x90, 0x05, 0x00], [0x81, 0x90, 0x05]].map
      (fun l : List Byte => rxOf (exec .rxStep (holding none l))) =
    [some ([], 1, 0, [.dropped 1, .msg 0xF069 []]), some ([0x90, 0x05, 0x00], 3, 0, [.dropped 3]),
      some ([0x90, 0x05], 1, 0, [.dropped 1])] := by decide +kernel

/-- 2.6: one pin with a debounce entry (seq 1) and an encoder entry (seq 2); neither emits. -/
theorem test_pinChange : dbOf 1 (exec (.pinChange 0 1) (sample none)) =
      some { valid := true, pin := 0, delay := 5, last := none, armed := true, deadline := 85, seq := 1 } ∧
    (encOf 0 (exec (.pinChange 0 1) (sample none))).map (·.step) = some (some .cw) ∧
    eventsOf (exec (.pinChange 0 1) (sample none)) = some [] ∧
    resultOf (exec (.pinChange 8 1) (sample none)) = res .outOfRange .empty := by decide +kernel

/-- 2.8: a clockwise detent wraps the count. -/
theorem test_pinChange_detent : eventsOf (exec (.pinChange 0 1) (sample (some .cw))) = some [.encCount 0 0x80000000, .encCw 0] ∧
    encOf 0 (exec (.pinChange 0 1) (sample (some .cw))) =
      some { valid := true, pin1 := 0, pin2 := 1, step := none, count := 0x80000000, seq := 2 } := by decide +kernel

/-- 2.6. -/
theorem test_tick : exec .tick { State.reset with now := 79 } = .next { State.reset with now := 80 } := rfl

/-- 2.7. -/
theorem test_dbCreate : dbOf 0 (exec (.dbCreate 0 3 50) State.reset) =
      some { valid := true, pin := 3, delay := 50, last := none, armed := false, deadline := 0, seq := 0 } ∧
    resultOf (exec (.dbCreate 0 4 10) (sample none)) = res .entryBusy .empty ∧
    resultOf (exec (.dbCreate 4 3 50) State.reset) = res .outOfRange .empty ∧
    resultOf (exec (.dbCreate 0 8 50) State.reset) = res .outOfRange .empty := by decide +kernel

/-- 2.7. -/
theorem test_dbRemove : dbOf 0 (exec (.dbRemove 0) (sample none)) = some DbEntry.reset ∧
    resultOf (exec (.dbRemove 2) (sample none)) = res .entryFree .empty := by decide +kernel

/-- 2.7: deadline 80 at tick 80; then one with no expiry enabled. -/
theorem test_dbExpire : eventsOf (exec (.dbExpire 0) (sample none)) = some [.dbPublish 0 1] ∧
    dbOf 0 (exec (.dbExpire 0) (sample none)) =
      some { valid := true, pin := 3, delay := 2, last := some 1, armed := false, deadline := 80, seq := 0 } ∧
    resultOf (exec (.dbExpire 0) { sample none with now := 79 }) = none := by decide +kernel

/-- 2.8. -/
theorem test_encCreate : encOf 1 (exec (.encCreate 1 3 0) (sample none)) =
      some { valid := true, pin1 := 3, pin2 := 0, step := none, count := 0, seq := 3 } ∧
    resultOf (exec (.encCreate 1 5 0) (sample none)) = res .pinUnknown .empty ∧
    resultOf (exec (.encCreate 1 2 2) (sample none)) = res .samePin .empty ∧
    resultOf (exec (.encCreate 0 5 5) (sample none)) = res .entryBusy .empty ∧
    resultOf (exec (.encCreate 1 0 9) (sample none)) = res .outOfRange .empty := by decide +kernel

/-- 2.8. -/
theorem test_encRemove : encOf 0 (exec (.encRemove 0) (sample (some .cw))) = some EncEntry.reset ∧
    eventsOf (exec (.encRemove 0) (sample (some .cw))) = some [] := by decide +kernel

/-- 2.8. -/
theorem test_encRead : resultOf (exec (.encRead 0) (sample none)) = res .ok (.count 0x7FFFFFFF) ∧
    resultOf (exec (.encRead 2) (sample none)) = res .entryFree .empty := by decide +kernel

/-- 2.9, and R37's value of RX_CAP at the top of its 32 bits. -/
theorem test_readReg : resultOf (exec (.readReg 0x03) { State.reset with now := 2 ^ 32 + 5 }) = res .ok (.value 5) ∧
    resultOf (exec (.readReg 0x04) { State.reset with now := 2 ^ 32 + 5 }) = res .ok (.value 1) ∧
    resultOf (exec (.readReg 0x08) State.reset) = res .ok (.value 0) ∧
    resultOf (exec (.readReg 0x08) (holding (some 0xFFFFFFFF) [])) = res .ok (.value 0xFFFFFFFF) ∧
    resultOf (exec (.readReg 0x0A) State.reset) = res .outOfRange .empty := by decide +kernel

/-- 2.9. -/
theorem test_reset : exec .reset { sample none with events := [.encCw 0] } = .next { State.reset with events := [.encCw 0] } := rfl

/-- 2.9: a reserved op byte through the port, on the host's turn. -/
theorem test_step_illegal : resultOf (step { sample none with port := [0x32], turns := [.host] }) = res .illegalOp .empty ∧
    resultOf (step { State.reset with port := [0xFF] }) = res .illegalOp .empty := ⟨rfl, rfl⟩

/-- P1 lines 7 and 9 as bytes after reset, placed by `withFetchWord`. -/
theorem test_step_first : resultOf (step (State.reset.withFetchWord 16 0x0150)) = res .ok (.value 0) ∧
    resultOf (step (State.reset.withFetchWord 48 0x000000010320)) = res .ok .empty := ⟨rfl, rfl⟩

/-- The timebase's label placed as the first step: the made-up entry's unknown last state is published. -/
theorem test_step_expire : eventsOf (step (State.reset.withFetchWord 16 0x0132)) = some [.dbPublish 1 0] := rfl

/-- The codes of R104 and the kind codes of R106. -/
theorem test_codes : [Status.ok, .needMore, .malformed, .invalidId, .outOfRange, .entryBusy, .entryFree, .samePin, .pinUnknown, .overflow,
      .illegalOp].map Status.code = [0x00, 0x01, 0x02, 0x03, 0x04, 0x05, 0x06, 0x07, 0x08, 0x09, 0x0A] ∧
    [Event.msg 0 [], .dropped 0, .dbPublish 0 0, .encCount 0 0, .encCw 0, .encCcw 0].map Event.kind =
      [0x01, 0x02, 0x10, 0x20, 0x21, 0x22] := by decide

/-- R89: a trailing zero group is not canonical. -/
theorem test_canonical : [[], [0x00], [0x05, 0x00], [0x80], [0x2C, 0x02]].map canonicalPayload = [false, true, false, false, true] := by
  decide

/-- R184's example and its ceil at a period of 1/3 ms, and R306's order: a port message with pins 0 and 2 selected. -/
theorem test_host_side : ticksOfMs defaultConfig 50 = 50 ∧ ticksOfMs { defaultConfig with tickPeriodMs := 1 / 3 } 50 = 150 ∧
    ticksOfMs { defaultConfig with tickPeriodMs := 3 / 2 } 50 = 34 ∧ portMessage 1 0x04 0x05 = [.pinChange 8 0, .pinChange 10 1] ∧
    std14 300 = [0x2C, 0x02] := by decide +kernel

/-- R107's example lines. -/
theorem test_asm : asm (.pinChange 3 1) = "PIN_CHANGE 3, 1" ∧ asm (.frame 0xF069 [1, 2]) = "FRAME 61545, [1, 2]" := by
  decide +kernel

/-! ### Witnesses: for each statement with hypotheses, values that meet all of them, clause by clause -/

/-- The sample state with the host's turn next and these bytes on the port. -/
def onPort (turns : List Turn) (port : List Byte) : State := { sample none with turns := turns, port := port }

theorem test_witness_DecodeOfEncode : (Instr.frame 0xF069 [1, 2]).wf = true ∧ (Instr.frame 0xF069 [1, 2]).onPort = true ∧
    (Instr.dbExpire 0xFF).wf = true := by decide
theorem test_witness_DecodedBytes : decode [0x50, 0x01, 0x07] = .command (.readReg 1) [0x07] := by decide
theorem test_witness_Truncated : (Instr.pinChange 3 1).wf = true ∧ (Instr.pinChange 3 1).onPort = true ∧
    5 < (encode (.pinChange 3 1)).length ∧ 0 < (encode .tick).length ∧
    { State.reset with port := (encode (.pinChange 3 1)).take 5 }.pendingExpiries = [] := by decide +kernel
theorem test_witness_StepRuns_idle : { State.reset with port := [0x21] }.pendingExpiries = [] ∧
    decodePort { State.reset with port := [0x21] }.port = .command .tick [] := by decide
theorem test_witness_StepRuns_pending : (onPort [.host] [0x21]).pendingExpiries ≠ [] ∧
    (onPort [.host] [0x21]).nextTurn = .host ∧ decodePort (onPort [.host] [0x21]).port = .command .tick [] := by
  decide +kernel
theorem test_witness_Reserved : (onPort [.host] [0x32, 0x01]).nextTurn = .host ∧ { State.reset with port := [0x80] }.pendingExpiries = [] ∧
    (0x32 : Byte).toNat ∉ [0x01, 0x02, 0x03, 0x04, 0x05, 0x06, 0x10, 0x11, 0x20, 0x21, 0x30, 0x31, 0x40, 0x41, 0x42, 0x50, 0x7F] ∧
    (0x80 : Byte).toNat ∉ [0x01, 0x02, 0x03, 0x04, 0x05, 0x06, 0x10, 0x11, 0x20, 0x21, 0x30, 0x31, 0x40, 0x41, 0x42, 0x50, 0x7F] := by
  decide +kernel
theorem test_witness_StepTakes : (onPort [.expire 0] [0x21]).nextTurn = .expire 0 ∧
    (onPort [.expire 0] [0x21]).expiryEnabled 0 = true := by decide +kernel
theorem test_witness_Idle : decodePort (onPort [.host] []).port = .incomplete ∧ (onPort [.host] []).pendingExpiries ≠ [] ∧
    (onPort [.host] []).nextTurn = .host ∧ (onPort [.host] []).expiryEnabled 1 = true := by decide +kernel

theorem test_witness_Frame : 0x80 ≤ (0x80 : Byte).toNat ∧ (0x80 : Byte) ≠ 0xF0#8 ∧ (0x80 : Byte) ≠ 0xF7#8 ∧
    0x80 ≤ (0xFF : Byte).toNat ∧ (0xFF : Byte) ≠ 0xF0#8 ∧ (0xFF : Byte) ≠ 0xF7#8 ∧
    0x01 ≤ (0x01 : Byte).toNat ∧ (0x01 : Byte).toNat ≤ 0x7F ∧ 0x01 ≤ (0x7F : Byte).toNat ∧ (0x7F : Byte).toNat ≤ 0x7F := by
  decide
theorem test_witness_FrameRefuses :
    (∀ b : Byte, 0x80 ≤ b.toNat → b ≠ 0xF0#8 → b ≠ 0xF7#8 → (0x0000F080 : Word) ≠ b.setWidth 32) ∧
    (∀ t : Byte, 0x01 ≤ t.toNat → t.toNat ≤ 0x7F → (0x0000F080 : Word) ≠ 0x0000F000#32 ||| t.setWidth 32) ∧
    (∀ x : BitVec 14, (0x0000F080 : Word) ≠ 0x00F00000#32 ||| x.setWidth 32) := by
  refine ⟨by decide +kernel, by decide +kernel, fun x h => ?_⟩
  have hn := congrArg BitVec.toNat h
  rw [extId_toNat] at hn
  have h0 : (0x0000F080 : Word).toNat = 0xF080 := by decide
  omega
theorem test_witness_FrameThenParse : State.reset.cfg.wf = true ∧
    ∃ t, exec (.frame 0x00000090 [0x05, 0x00]) State.reset = .next t ∧
      t.result = { status := .ok, data := .bytes [0x90, 0x05, 0x00] } ∧ State.reset.cfg.isStdId 0x90 = true ∧
      [(0x05 : Byte), 0x00].length = State.reset.cfg.stdPayloadLen 0x90 :=
  ⟨by decide, _, rfl, by decide +kernel, by decide, by decide⟩
theorem test_witness_FrameThenParse_fails : ∃ t, exec (.frame 0x0000F069 [0x80]) State.reset = .next t ∧
    t.result = { status := .ok, data := .bytes [0xF0, 0x69, 0x80, 0xF7] } := ⟨_, rfl, by decide +kernel⟩
theorem test_witness_ParseSkips : ∀ b ∈ [(0x80 : Byte), 0xEF + 0x02, 0xFE],
    0x80 ≤ b.toNat ∧ b ≠ 0xF0#8 ∧ b ≠ 0xF7#8 ∧ defaultConfig.isStdId b = false := by decide
theorem test_witness_ParseSkips_stops : ∀ b ∈ [(0xF0 : Byte), 0xF7, 0x90, 0x7F],
    ¬ (0x80 ≤ b.toNat ∧ b ≠ 0xF0#8 ∧ b ≠ 0xF7#8 ∧ defaultConfig.isStdId b = false) := by decide
theorem test_witness_ShortBuffer :
    ¬ (0x80 ≤ (0x90 : Byte).toNat ∧ (0x90 : Byte) ≠ 0xF0#8 ∧ (0x90 : Byte) ≠ 0xF7#8 ∧ defaultConfig.isStdId 0x90 = false) ∧
    [(0x05 : Byte)].length + 1 < 3 ∧
    ¬ (defaultConfig.isStdId 0x90 = true ∧ 1 + defaultConfig.stdPayloadLen 0x90 ≤ [(0x05 : Byte)].length + 1) := by decide
theorem test_witness_Standard : defaultConfig.wf = true ∧ defaultConfig.isStdId 0x90 = true ∧
    [(0x7F : Byte), 0x00].length = defaultConfig.stdPayloadLen 0x90 ∧ (∀ x ∈ [(0x7F : Byte), 0x00], x.toNat < 0x80) ∧
    [(0x7F : Byte), 0x80] = [0x7F] ++ 0x80 :: [] ∧ (∀ y ∈ [(0x7F : Byte)], y.toNat < 0x80) ∧ 0x80 ≤ (0x80 : Byte).toNat := by
  decide
theorem test_witness_Sysex : defaultConfig.wf = true ∧ (∀ x ∈ [(0x7F : Byte), 0x00], x.toNat < 0x80) ∧
    (0x7F : Byte) ≠ 0x00#8 ∧ (∀ x ∈ [(0x00 : Byte), 0x7F, 0x7F], x.toNat < 0x80) ∧ 1 ≤ [(0x90 : Byte)].length := by decide
theorem test_witness_Sysex_cut : [(0x00 : Byte), 0x23].head? = some 0x00#8 ∧ [(0x00 : Byte), 0x23].length < 3 ∧
    4 ≤ [(0x00 : Byte), 0x23].length + 2 + ([] : List Byte).length ∧ 0x80 ≤ (0x80 : Byte).toNat ∧ (0x80 : Byte) ≠ 0xF7#8 ∧
    3 ≤ [(0x69 : Byte)].length + 2 + ([] : List Byte).length ∧ [(0x69 : Byte)].head? ≠ some 0x00#8 := by decide
theorem test_witness_Stray : ((0xF7 : Byte) = 0xF7#8 ∨ (0xF7 : Byte).toNat < 0x80) ∧
    ((0x7F : Byte) = 0xF7#8 ∨ (0x7F : Byte).toNat < 0x80) ∧ 2 ≤ [(0x90 : Byte), 0x05].length := by decide
theorem test_witness_ParseIsStable : parse defaultConfig [0x81, 0x90, 0x05, 0x00] = .msg 1 3 0x90 [0x05, 0x00] ∧
    parse defaultConfig [0xF7, 0x90, 0x05] = .malformed 0 1 ∧ parse defaultConfig [0x81, 0xF0] = .needMore 1 := by
  decide +kernel

theorem test_witness_ValueRoundTrips : (∃ t, exec (.toData 300) State.reset = .next t ∧ t.result.data = .payload [0x2C, 0x02]) ∧
    ∃ t, exec (.toValue [0x7F, 0x7F, 0x7F, 0x7F, 0x0F]) State.reset = .next t ∧ t.result.data = .number 0xFFFFFFFF :=
  ⟨⟨_, rfl, by decide +kernel⟩, _, rfl, by decide +kernel⟩
theorem test_witness_StringRoundTrips :
    (∃ t, exec (.strToData [0xE9]) State.reset = .next t ∧ t.result.data = .payload [0x69, 0x01]) ∧
    ∃ t, exec (.toString [0x69, 0x01]) State.reset = .next t ∧ t.result.data = .str [0xE9] :=
  ⟨⟨_, rfl, by decide +kernel⟩, _, rfl, by decide +kernel⟩

theorem test_witness_RxPush : (holding (some 4) [1, 2, 3]).cfg.rxCap ≠ some (holding (some 4) [1, 2, 3]).rxbuf.length ∧
    (holding (some 4) [1, 2, 3, 4]).cfg.wf = true ∧
    (holding (some 4) [1, 2, 3, 4]).cfg.rxCap = some (holding (some 4) [1, 2, 3, 4]).rxbuf.length := by decide
theorem test_witness_RxStep :
    parse (holding none [0x81, 0x90, 0x05, 0x00]).cfg (holding none [0x81, 0x90, 0x05, 0x00]).rxbuf = .msg 1 3 0x90 [0x05, 0x00] ∧
    parse (holding none [0x81, 0x90]).cfg (holding none [0x81, 0x90]).rxbuf = .needMore 1 ∧
    parse (holding none [0xF7, 0x90, 0x05]).cfg (holding none [0xF7, 0x90, 0x05]).rxbuf = .malformed 0 1 := by decide +kernel
theorem test_witness_RxStepsProgress :
    (∃ t, exec .rxStep (holding none [0x90, 0x05, 0x00]) = .next t ∧ t.result.status = .ok) ∧
    (∃ t, exec .rxStep (holding none [0xF7, 0x05, 0x00]) = .next t ∧ t.result.status = .malformed) ∧
    (∃ t, exec .rxStep (holding none [0x81, 0x90]) = .next t ∧ t.result = { status := .needMore, data := .dropped 1 }) ∧
    ∃ t, exec .rxStep (holding none []) = .next t ∧ t.result = { status := .needMore, data := .dropped 0 } :=
  ⟨⟨_, rfl, by decide +kernel⟩, ⟨_, rfl, by decide +kernel⟩, ⟨_, rfl, by decide +kernel⟩, _, rfl, by decide +kernel⟩

/-- No push of a run overflows where none does one operation at a time. -/
theorem noOverflow_nil (s : State) : NoOverflow [] s := by
  intro pre b post u h
  cases pre <;> cases h

theorem noOverflow_cons (i : Instr) (l : List Instr) (s : State) (h : (∃ b, i = .rxPush b) → s.rxFull = false)
    (ht : ∀ t, exec i s = .next t → NoOverflow l t) : NoOverflow (i :: l) s := by
  intro pre b post u he hr
  cases pre with
  | nil =>
    cases hr
    exact h ⟨b, (List.cons.inj he).1⟩
  | cons j pre =>
    obtain ⟨rfl, rfl⟩ := List.cons.inj he
    rw [runOps] at hr
    split at hr
    · rename_i t hx
      exact ht t hx pre b post u rfl hr
    · cases hr
    · cases hr

/-- Two ways of pushing a standard message into a buffer of four bytes. -/
def splitA : List Instr := [.rxPush 0x90, .rxStep, .rxPush 0x05, .rxPush 0x00]
def splitB : List Instr := [.rxPush 0x90, .rxPush 0x05, .rxPush 0x00, .rxStep]

theorem test_witness_Split : (holding (some 4) []).cfg.wf = true ∧ splitA.all isRxOp = true ∧ splitB.all isRxOp = true ∧
    pushedBytes splitA = pushedBytes splitB := by decide
theorem test_witness_Split_room : NoOverflow splitA (holding (some 4) []) ∧ NoOverflow splitB (holding (some 4) []) := by
  constructor <;>
  · refine noOverflow_cons _ _ _ (fun _ => by decide) fun _ h => ?_
    cases h
    refine noOverflow_cons _ _ _ (fun _ => by decide +kernel) fun _ h => ?_
    cases h
    refine noOverflow_cons _ _ _ (fun _ => by decide +kernel) fun _ h => ?_
    cases h
    exact noOverflow_cons _ _ _ (fun _ => by decide +kernel) fun _ _ => noOverflow_nil _
theorem test_witness_Split_drained :
    (∃ t, runOps (splitA ++ rxSteps 2) (holding (some 4) []) = .next t ∧ t.result = { status := .needMore, data := .dropped 0 }) ∧
    ∃ t, runOps (splitB ++ rxSteps 1) (holding (some 4) []) = .next t ∧ t.result = { status := .needMore, data := .dropped 0 } :=
  ⟨⟨_, rfl, by decide +kernel⟩, _, rfl, by decide +kernel⟩

theorem test_witness_PinChange_same : (sample none).cfg.nPins ≤ (8 : Byte).toNat ∧ (7 : Byte).toNat < (sample none).cfg.nPins ∧
    (sample none).pinValue (3 : Byte).toNat = some 1 := by decide
theorem test_witness_PinChange_new : (sample none).Inv ∧ (7 : Byte).toNat < (sample none).cfg.nPins ∧
    (sample none).pinValue (7 : Byte).toNat ≠ some 0 ∧ (sample none).pinValue (3 : Byte).toNat ≠ some 0 :=
  ⟨sample_inv _, by decide, by decide, by decide⟩
theorem test_witness_PinChange_encoders (st : Option Phase) : (sample st).Inv ∧ (sample st).pinValue (0 : Byte).toNat ≠ some 1 ∧
    ((sample st).encAt 0).valid = true ∧ ((sample st).encAt 0).pin1 = (0 : Byte).toNat ∧ ((sample st).encAt 1).valid = false ∧
    ((sample st).encAt 0).step = st ∧ ∃ t, exec (.pinChange 0 1) (sample st) = .next t ∧ t.result.status = .ok :=
  ⟨sample_inv st, (by decide : (some (0 : Word)) ≠ some 1), rfl, rfl, rfl, rfl, _, rfl, rfl⟩

theorem test_witness_DbCreate : (sample none).db.length = (sample none).cfg.nDb ∧ (3 : Byte).toNat < (sample none).cfg.nDb ∧
    (7 : Byte).toNat < (sample none).cfg.nPins ∧ ((sample none).dbAt (3 : Byte).toNat).valid = false := by decide
theorem test_witness_DbCreateRefusals : (sample none).cfg.nDb ≤ (4 : Byte).toNat ∧ (sample none).cfg.nPins ≤ (8 : Byte).toNat ∧
    (0 : Byte).toNat < (sample none).cfg.nDb ∧ ((sample none).dbAt (0 : Byte).toNat).valid = true := by decide
theorem test_witness_RemovedEntry : ∃ t, exec (.dbRemove 0) (sample none) = .next t ∧ t.result.status = .ok ∧
    ∃ u, exec (.pinChange 3 0) t = .next u := ⟨_, rfl, rfl, _, rfl⟩
theorem test_witness_DbExpire : ((sample none).dbAt (0 : Byte).toNat).valid = true ∧
    ((sample none).dbAt (0 : Byte).toNat).armed = true ∧ ((sample none).dbAt (0 : Byte).toNat).deadline ≤ (sample none).now ∧
    (sample none).pinValue ((sample none).dbAt (0 : Byte).toNat).pin = some 1 := by decide
theorem test_witness_DbExpireNeeds : ((sample none).dbAt (2 : Byte).toNat).valid = false ∧
    ({ sample none with now := 79 }.dbAt (0 : Byte).toNat).valid = true ∧
    { sample none with now := 79 }.now < ({ sample none with now := 79 }.dbAt (0 : Byte).toNat).deadline ∧
    ({ sample none with db := [DbEntry.fresh 3 5 0] }.dbAt (0 : Byte).toNat).armed = false := by decide
theorem test_witness_ChangeThenDelay : (sample none).Inv ∧ (3 : Byte).toNat < (sample none).cfg.nPins ∧
    (sample none).pinValue (3 : Byte).toNat ≠ some 0 ∧ ((sample none).dbAt (0 : Byte).toNat).valid = true ∧
    ((sample none).dbAt (0 : Byte).toNat).pin = (3 : Byte).toNat ∧
    (∃ t, runOps (.pinChange 3 0 :: waitTicks 1) (sample none) = .next t) ∧
    ∃ t, runOps (.pinChange 3 0 :: waitTicks 2) (sample none) = .next t :=
  ⟨sample_inv _, by decide, by decide, rfl, rfl, ⟨_, rfl⟩, _, rfl⟩
theorem test_witness_QuietPeriod : ((sample none).dbAt (0 : Byte).toNat).valid = true ∧
    (∀ i ∈ [Instr.tick, .dbExpire 0, .pinChange 0 1], (∀ p v, i = .pinChange p v → p.toNat ≠ ((sample none).dbAt (0 : Byte).toNat).pin) ∧
      ∀ pin delay, i ≠ .dbCreate 0 pin delay) ∧
    ∃ t, runOps [.tick, .dbExpire 0, .pinChange 0 1] (sample none) = .next t ∧
      dbEventsOf 0 t.events = [.dbPublish 0 1] := by
  refine ⟨rfl, fun i hi => ?_, _, rfl, by decide +kernel⟩
  simp only [List.mem_cons, List.not_mem_nil, or_false] at hi
  rcases hi with rfl | rfl | rfl
  · exact ⟨fun _ _ h => (by cases h), fun _ _ h => (by cases h)⟩
  · exact ⟨fun _ _ h => (by cases h), fun _ _ h => (by cases h)⟩
  · exact ⟨fun _ _ h => (by cases h; decide), fun _ _ h => (by cases h)⟩
theorem test_witness_QuietPeriod_removed : ∃ t, exec (.dbRemove 0) (sample none) = .next t ∧ (t.dbAt (0 : Byte).toNat).valid = false ∧
    (∀ i ∈ [Instr.pinChange 3 0, .tick, .dbExpire 1], ∀ pin delay, i ≠ .dbCreate 0 pin delay) ∧
    ∃ u, runOps [.pinChange 3 0, .tick, .dbExpire 1] t = .next u := by
  refine ⟨_, rfl, rfl, fun i hi => ?_, _, rfl⟩
  simp only [List.mem_cons, List.not_mem_nil, or_false] at hi
  rcases hi with rfl | rfl | rfl <;> exact fun _ _ h => (by cases h)
theorem test_witness_OnlyItsPin : (∃ t, exec (.pinChange 3 0) (sample none) = .next t ∧ (t.dbAt 0).armed = true) ∧
    ∃ t, exec .tick (sample none) = .next t ∧ (t.dbAt 1).armed = true := ⟨⟨_, rfl, rfl⟩, _, rfl, rfl⟩
theorem test_witness_Pending : (sample none).Inv ∧ (0 : Byte) ≠ 1 ∧ (sample none).expiryEnabled 0 = true ∧
    (sample none).expiryEnabled 1 = true := ⟨sample_inv _, by decide, by decide, by decide⟩

theorem test_witness_EncCreate : (sample none).enc.length = (sample none).cfg.nEnc ∧ (3 : Byte).toNat < (sample none).cfg.nEnc ∧
    (3 : Byte).toNat < (sample none).cfg.nPins ∧ (0 : Byte).toNat < (sample none).cfg.nPins ∧
    ((sample none).encAt (3 : Byte).toNat).valid = false ∧ (3 : Byte) ≠ 0 ∧ (sample none).pinValue (3 : Byte).toNat ≠ none ∧
    (sample none).pinValue (0 : Byte).toNat ≠ none := by decide
theorem test_witness_EncCreateRefusals : (sample none).cfg.nEnc ≤ (4 : Byte).toNat ∧ (sample none).cfg.nPins ≤ (8 : Byte).toNat ∧
    ((sample none).encAt (0 : Byte).toNat).valid = true ∧ ((sample none).encAt (1 : Byte).toNat).valid = false ∧
    (sample none).pinValue (2 : Byte).toNat = none ∧ (2 : Byte).toNat < (sample none).cfg.nPins := by decide
theorem test_witness_EncSlots : (sample none).cfg.nEnc ≤ (4 : Byte).toNat ∧ (3 : Byte).toNat < (sample none).cfg.nEnc ∧
    ((sample none).encAt (3 : Byte).toNat).valid = false ∧ (0 : Byte).toNat < (sample none).cfg.nEnc ∧
    ((sample none).encAt (0 : Byte).toNat).valid = true := by decide
theorem test_witness_DbSlots : (sample none).cfg.nDb ≤ (4 : Byte).toNat ∧ (3 : Byte).toNat < (sample none).cfg.nDb ∧
    ((sample none).dbAt (3 : Byte).toNat).valid = false ∧ (0 : Byte).toNat < (sample none).cfg.nDb ∧
    ((sample none).dbAt (0 : Byte).toNat).valid = true := by decide
theorem test_witness_CountChanges : (sample (some .cw)).Inv ∧ ∃ t, exec (.pinChange 0 1) (sample (some .cw)) = .next t ∧
    ((sample (some .cw)).encAt (0 : Byte).toNat).valid = true ∧ (t.encAt (0 : Byte).toNat).valid = true ∧
    (t.encAt (0 : Byte).toNat).count ≠ ((sample (some .cw)).encAt (0 : Byte).toNat).count :=
  ⟨sample_inv _, _, rfl, rfl, rfl, by decide +kernel⟩
theorem test_witness_CleanCycle : (sample none).Inv ∧ ((sample none).encAt (0 : Byte).toNat).valid = true ∧
    ((sample none).encAt (0 : Byte).toNat).pin1 = (0 : Byte).toNat ∧ ((sample none).encAt (0 : Byte).toNat).pin2 = (1 : Byte).toNat ∧
    ((sample none).encAt (0 : Byte).toNat).step = none ∧ (sample none).pinValue (0 : Byte).toNat = some 0 ∧
    (sample none).pinValue (1 : Byte).toNat = some 0 := ⟨sample_inv _, rfl, rfl, rfl, rfl, rfl, rfl⟩
theorem test_witness_ReadReg : 0x0A ≤ (0x0A : Byte).toNat ∧ 0x0A ≤ (0xFF : Byte).toNat ∧ (holding none []).cfg.rxCap = none ∧
    (holding (some (2 ^ 32 - 1)) []).cfg.rxCap = some (2 ^ 32 - 1) ∧ 2 ^ 32 - 1 < 2 ^ 32 ∧
    (holding (some (2 ^ 32)) []).cfg.rxCap = some (2 ^ 32) ∧ 2 ^ 32 ≤ 2 ^ 32 ∧ (holding (some (2 ^ 32)) []).cfg.wf = true := by
  decide
theorem test_witness_PowerOn : defaultConfig.wf = true := by decide
theorem test_witness_Step : (onPort [.host] [0x21]).Inv ∧ ∃ t, step (onPort [.host] [0x21]) = .next t :=
  ⟨(sample_inv none).of_same rfl rfl (fun c h => (by cases h)) (fun _ => rfl) rfl rfl rfl, _, rfl⟩
theorem test_witness_Refused : ∃ t, exec (.dbCreate 0 3 5) (sample none) = .next t ∧ t.result.status.isRefusal = true :=
  ⟨_, rfl, rfl⟩
theorem test_witness_Reading : (∃ t, exec (.readReg 9) (sample none) = .next t) ∧ (∃ t, exec (.encRead 0) (sample none) = .next t) ∧
    ∃ t, exec (.toData 5) (sample none) = .next t := ⟨⟨_, rfl⟩, ⟨_, rfl⟩, _, rfl⟩
theorem test_witness_Writers : (∃ t, exec .tick (sample none) = .next t ∧ t.now ≠ (sample none).now) ∧
    (∃ t, exec (.pinChange 3 0) (sample none) = .next t ∧ t.pinState ≠ (sample none).pinState) ∧
    (∃ t, exec (.encCreate 1 3 0) (sample none) = .next t ∧ t.nextSeq ≠ (sample none).nextSeq) ∧
    (∃ t, exec (.rxPush 9) (sample none) = .next t ∧ t.rxbuf ≠ (sample none).rxbuf) ∧
    (∃ t, exec (.dbExpire 0) (sample none) = .next t ∧ t.db ≠ (sample none).db ∧ t.events ≠ (sample none).events) ∧
    (∃ t, exec (.encRemove 0) (sample none) = .next t ∧ t.enc ≠ (sample none).enc) ∧
    ∃ t, exec (.rxPush 9) (holding (some 4) [1, 2, 3, 4]) = .next t ∧ t.overflowCount ≠ 0 :=
  ⟨⟨_, rfl, by decide⟩, ⟨_, rfl, by decide +kernel⟩, ⟨_, rfl, by decide +kernel⟩, ⟨_, rfl, by decide +kernel⟩,
    ⟨_, rfl, by decide +kernel, by decide +kernel⟩, ⟨_, rfl, by decide +kernel⟩, _, rfl, by decide +kernel⟩
theorem test_witness_Events : (sample (some .cw)).Inv ∧ (∃ t, exec (.pinChange 0 1) (sample (some .cw)) = .next t) ∧
    ∃ t, exec (.dbExpire 0) (sample none) = .next t := ⟨sample_inv _, ⟨_, rfl⟩, _, rfl⟩
theorem test_witness_Queue : (∃ t, exec (.rxPush 0x90) (holding (some 4) [1, 2, 3, 4]) = .next t) ∧
    ∃ t, exec .rxStep (holding none [1, 2, 3]) = .next t := ⟨⟨_, rfl⟩, _, rfl⟩
theorem test_witness_StatusCodes : (∃ t, exec (.encCreate 1 5 0) (sample none) = .next t ∧ t.result.status = .pinUnknown) ∧
    (Instr.encCreate 1 5 0).onPort = true ∧ ∃ t, exec (.parse [0xF0]) (sample none) = .next t ∧ t.result.status = .needMore :=
  ⟨⟨_, rfl, rfl⟩, rfl, _, rfl, rfl⟩

end Sys2Proof.Tests
end

/-! PROOF. Which step the block takes (00_scope.md R15): the chosen expiry, the host's command, or, with no whole
command on the port, the earliest pending expiry. -/

namespace Sys2Proof.Machine

/-! ### The scheduler's choice -/

theorem State.chosenExpiry_none_of_host_or_idle {s : State} (h : s.pendingExpiries = [] ∨ s.nextTurn = .host) :
    s.chosenExpiry = none := by
  rcases h with h | h <;> simp [State.chosenExpiry, h]

theorem State.chosenExpiry_of_enabled {s : State} {e : Byte} (ht : s.nextTurn = .expire e)
    (he : s.expiryEnabled e = true) : s.chosenExpiry = some e := by
  have hne : s.pendingExpiries ≠ [] := List.ne_nil_of_mem ((s.mem_pendingExpiries e).mpr he)
  simp [State.chosenExpiry, hne, ht, he]

/-! ### The order of R270 -/

theorem State.expiresBefore_iff (s : State) (a b : Byte) :
    s.expiresBefore a b = true ↔
      (s.dbAt a.toNat).deadline < (s.dbAt b.toNat).deadline ∨
        ((s.dbAt a.toNat).deadline = (s.dbAt b.toNat).deadline ∧ (s.dbAt a.toNat).seq ≤ (s.dbAt b.toNat).seq) := by
  simp [State.expiresBefore]

theorem State.expiresBefore_total (s : State) (a b : Byte) :
    s.expiresBefore a b = true ∨ s.expiresBefore b a = true := by
  simp only [State.expiresBefore_iff]
  omega

theorem State.expiresBefore_trans (s : State) (a b c : Byte) (hab : s.expiresBefore a b = true)
    (hbc : s.expiresBefore b c = true) : s.expiresBefore a c = true := by
  simp only [State.expiresBefore_iff] at *
  omega

/-- In a total preorder `earliest` gives a least element of the list. -/
theorem earliest_before_of_mem {before : Byte → Byte → Bool}
    (total : ∀ a b, before a b = true ∨ before b a = true)
    (trans : ∀ a b c, before a b = true → before b c = true → before a c = true)
    {l : List Byte} {e x : Byte} (h : earliest before l = some e) (hx : x ∈ l) : before e x = true := by
  have refl (a : Byte) : before a a = true := (total a a).elim id id
  induction l generalizing e with
  | nil => cases hx
  | cons a l ih =>
    cases hl : earliest before l with
    | none =>
      have hnil : l = [] := by
        by_contra hn
        obtain ⟨b, hb⟩ := earliest_isSome before l hn
        simp [hl] at hb
      simp only [earliest, hl, Option.some.injEq] at h
      subst h hnil
      rw [List.mem_singleton.mp hx]
      exact refl a
    | some b =>
      simp only [earliest, hl, Option.some.injEq] at h
      subst h
      rcases List.mem_cons.mp hx with rfl | hx
      · split
        · exact refl x
        · next hn => exact (total x b).resolve_left hn
      · have hbx : before b x = true := ih hl hx
        split
        · next hab => exact trans a b x hab hbx
        · exact hbx

/-! ### The step for each selection -/

theorem step_of_chosenExpiry {s : State} {e : Byte} (h : s.chosenExpiry = some e) :
    step s = exec (.dbExpire e) s.advance := by
  simp [step, State.select, h]

theorem step_of_command {s : State} {i : Instr} {rest : List Byte} (h : s.chosenExpiry = none)
    (hd : decodePort s.port = .command i rest) : step s = exec i (s.fetched rest) := by
  simp [step, State.select, h, hd]

theorem step_of_earliest {s : State} {e : Byte} (h : s.chosenExpiry = none) (hd : decodePort s.port = .incomplete)
    (he : earliest s.expiresBefore s.pendingExpiries = some e) : step s = exec (.dbExpire e) s.advance := by
  simp [step, State.select, h, hd, he]

/-! ### The obligations -/

/-- Settles O5: with no expiry chosen the block selects the port's command. -/
theorem stepRunsTheDecodedCommand : Obligations.StepRunsTheDecodedCommand := by
  intro s i rest hturn hd
  rw [step_of_command (State.chosenExpiry_none_of_host_or_idle hturn) hd, State.fetched_eq]

/-- Settles O7: the scheduler's enabled choice is looked at before the port. -/
theorem stepTakesTheChosenExpiry : Obligations.StepTakesTheChosenExpiry :=
  fun _ _ hturn he => step_of_chosenExpiry (State.chosenExpiry_of_enabled hturn he)

/-- Settles O8: the step takes the scheduler's choice where it made one, and else the earliest pending expiry, which is
least because R270's order is a total preorder. -/
theorem idlePortLetsAPendingExpiryGo : Obligations.IdlePortLetsAPendingExpiryGo := by
  intro s hd hpending
  cases hc : s.chosenExpiry with
  | some e =>
    refine ⟨e, s.chosenExpiry_enabled e hc, step_of_chosenExpiry hc, fun hhost => ?_⟩
    simp [State.chosenExpiry_none_of_host_or_idle (.inr hhost)] at hc
  | none =>
    obtain ⟨e, he⟩ := earliest_isSome s.expiresBefore _ hpending
    have hmem : e ∈ s.pendingExpiries := earliest_mem _ _ _ he
    refine ⟨e, (s.mem_pendingExpiries e).mp hmem, step_of_earliest hc hd he, fun _ e' he' => ?_⟩
    have hmem' : e' ∈ s.pendingExpiries := (s.mem_pendingExpiries e').mpr he'
    exact (s.expiresBefore_iff e e').mp
      (earliest_before_of_mem s.expiresBefore_total s.expiresBefore_trans he hmem')

end Sys2Proof.Machine

/-! PROOF. What each operation can do to the state (10_state.md): one inversion lemma for all of them, the invariant along
every step, and who writes which element of the state. -/

namespace Sys2Proof.Machine

/-! ### What an operation can do to the state -/

/-- What operation `i` did to `s` when it answered a next state: one constructor per kind of write. -/
inductive OpEffect (s : State) : Instr → State → Prop where
  /-- Only `result` is written: a reading operation, a refusal, or a PIN_CHANGE without a change. -/
  | answered {i : Instr} (st : Status) (d : ResultData) (hi : ∀ e, i ≠ .dbExpire e) : OpEffect s i (s.finish st d)
  | pushed (b : Byte) (st : Status) (d : ResultData) (hfull : s.rxFull = false) :
      OpEffect s (.rxPush b) ((s.append b).finish st d)
  | flushed (b : Byte) (st : Status) (d : ResultData) (hfull : s.rxFull = true) :
      OpEffect s (.rxPush b) ((s.flush.append b).finish st d)
  | stepped (n m : Nat) (evs : List Event) (st : Status) (d : ResultData)
      (hevs : ∀ ev ∈ evs, (∃ id p, ev = .msg id p) ∨ ∃ k, ev = .dropped k) :
      OpEffect s .rxStep ((((s.consume n).addDropped m).emit evs).finish st d)
  | delivered (p : Byte) (v : Word) (u : State) (hp : s.pinInRange p = true) (hv : s.pinValue p.toNat ≠ some v)
      (hu : deliver p.toNat v s = .ok u) : OpEffect s (.pinChange p v) u.done
  | ticked : OpEffect s .tick { s with now := s.now + 1 }.done
  | dbCreated (e pin : Byte) (delay : Word) (he : s.dbInRange e = true) (hp : s.pinInRange pin = true)
      (hfree : (s.dbAt e.toNat).valid = false) :
      OpEffect s (.dbCreate e pin delay)
        (s.setDb e.toNat (DbEntry.fresh pin.toNat delay s.nextSeq)).bumpSeq.done
  | dbRemoved (e : Byte) (hlive : (s.dbAt e.toNat).valid = true) :
      OpEffect s (.dbRemove e) (s.setDb e.toNat DbEntry.reset).done
  | dbExpired (e : Byte) (cur : Word) (hen : s.expiryEnabled e = true)
      (hcur : s.pinValue (s.dbAt e.toNat).pin = some cur) : OpEffect s (.dbExpire e)
        ((s.setDb e.toNat ((s.dbAt e.toNat).expired cur)).emit ((s.dbAt e.toNat).expiryEvents cur e))
  | encCreated (e pin1 pin2 : Byte) (he : s.encInRange e = true) (h1 : s.pinInRange pin1 = true)
      (h2 : s.pinInRange pin2 = true) (hfree : (s.encAt e.toNat).valid = false) (hne : pin1 ≠ pin2)
      (hk1 : (s.pinValue pin1.toNat).isSome = true) (hk2 : (s.pinValue pin2.toNat).isSome = true) :
      OpEffect s (.encCreate e pin1 pin2)
        (s.setEnc e.toNat (EncEntry.fresh pin1.toNat pin2.toNat s.nextSeq)).bumpSeq.done
  | encRemoved (e : Byte) (hlive : (s.encAt e.toNat).valid = true) :
      OpEffect s (.encRemove e) (s.setEnc e.toNat EncEntry.reset).done
  | restarted : OpEffect s .reset { State.powerOn s.cfg with
      events := s.events, port := s.port, turns := s.turns, turnCount := s.turnCount }.done

theorem OpEffect.of_finish {i : Instr} {s t : State} {st : Status} {d : ResultData} (hi : ∀ e, i ≠ .dbExpire e)
    (h : (.next (s.finish st d) : Out) = .next t) : OpEffect s i t := by
  cases h
  exact .answered st d hi

theorem execFrame_effect {id : Word} {payload : List Byte} {s t : State} (h : execFrame id payload s = .next t) :
    OpEffect s (.frame id payload) t := by
  unfold execFrame at h
  split at h <;> exact .of_finish nofun h

theorem execRxPush_effect {b : Byte} {s t : State} (h : execRxPush b s = .next t) : OpEffect s (.rxPush b) t := by
  unfold execRxPush at h
  split at h
  · next hfull => cases h; exact .flushed b _ _ hfull
  · next hfull => cases h; exact .pushed b _ _ (by simpa using hfull)

theorem mem_droppedEvents {k : Nat} {ev : Event} (h : ev ∈ droppedEvents k) : ev = .dropped (u32 k) := by
  unfold droppedEvents at h
  split at h
  · simpa using h
  · cases h

theorem applyVerdict_effect (s : State) (v : Verdict) : OpEffect s .rxStep (applyVerdict s v) := by
  cases v with
  | msg k n id p =>
    refine .stepped (k + n) k _ _ _ fun ev hev => ?_
    rcases List.mem_append.mp hev with hev | hev
    · exact .inr ⟨_, mem_droppedEvents hev⟩
    · exact .inl ⟨id, p, by simpa using hev⟩
  | needMore k => exact .stepped k k _ _ _ fun ev hev => .inr ⟨_, mem_droppedEvents hev⟩
  | malformed k n => exact .stepped (k + n) (k + n) _ _ _ fun ev hev => .inr ⟨_, by simpa using hev⟩

theorem execPinChange_effect {p : Byte} {v : Word} {s t : State} (h : execPinChange p v s = .next t) :
    OpEffect s (.pinChange p v) t := by
  rcases execPinChange_cases p v s with ⟨_, hx⟩ | ⟨_, _, hx⟩ | ⟨hp, hv, ⟨u, hu, hx⟩ | ⟨f, _, hx⟩⟩ <;> rw [hx] at h
  · exact .of_finish nofun h
  · exact .of_finish nofun h
  · cases h
    exact .delivered p v u hp hv hu
  · cases h

theorem execDbCreate_effect {e pin : Byte} {delay : Word} {s t : State}
    (h : execDbCreate e pin delay s = .next t) : OpEffect s (.dbCreate e pin delay) t := by
  unfold execDbCreate at h
  split_ifs at h with he hp hbusy
  · exact .of_finish nofun h
  · exact .of_finish nofun h
  · exact .of_finish nofun h
  · cases h
    exact .dbCreated e pin delay (by simpa using he) (by simpa using hp) (by simpa using hbusy)

theorem execDbRemove_effect {e : Byte} {s t : State} (h : execDbRemove e s = .next t) :
    OpEffect s (.dbRemove e) t := by
  unfold execDbRemove at h
  split_ifs at h with he hfree
  · exact .of_finish nofun h
  · exact .of_finish nofun h
  · cases h
    exact .dbRemoved e (by simpa using hfree)

theorem execDbExpire_effect {e : Byte} {s t : State} (h : execDbExpire e s = .next t) :
    OpEffect s (.dbExpire e) t := by
  obtain ⟨hen, cur, hcur, rfl⟩ := execDbExpire_next e s t h
  exact .dbExpired e cur hen hcur

theorem execEncCreate_effect {e pin1 pin2 : Byte} {s t : State} (h : execEncCreate e pin1 pin2 s = .next t) :
    OpEffect s (.encCreate e pin1 pin2) t := by
  unfold execEncCreate at h
  split_ifs at h with he hp hbusy hsame hknown
  · exact .of_finish nofun h
  · exact .of_finish nofun h
  · exact .of_finish nofun h
  · exact .of_finish nofun h
  · exact .of_finish nofun h
  · cases h
    simp only [not_or, Bool.not_eq_false, Bool.not_eq_true] at he hp hbusy
    rw [not_or, ← ne_eq, ← ne_eq, Option.ne_none_iff_isSome, Option.ne_none_iff_isSome] at hknown
    exact .encCreated e pin1 pin2 he hp.1 hp.2 hbusy hsame hknown.1 hknown.2

theorem execEncRemove_effect {e : Byte} {s t : State} (h : execEncRemove e s = .next t) :
    OpEffect s (.encRemove e) t := by
  unfold execEncRemove at h
  split_ifs at h with he hfree
  · exact .of_finish nofun h
  · exact .of_finish nofun h
  · cases h
    exact .encRemoved e (by simpa using hfree)

theorem execEncRead_effect {e : Byte} {s t : State} (h : execEncRead e s = .next t) :
    OpEffect s (.encRead e) t := by
  unfold execEncRead at h
  split_ifs at h <;> exact .of_finish nofun h

theorem execReadReg_effect {r : Byte} {s t : State} (h : execReadReg r s = .next t) :
    OpEffect s (.readReg r) t := by
  unfold execReadReg at h
  split at h <;> exact .of_finish nofun h

/-- Every operation that answers a next state had one of the effects (R20 to R36). -/
theorem exec_effect {i : Instr} {s t : State} (h : exec i s = .next t) : OpEffect s i t := by
  cases i with
  | frame => exact execFrame_effect h
  | parse => exact .of_finish nofun h
  | toData => exact .of_finish nofun h
  | toValue => exact .of_finish nofun h
  | strToData => exact .of_finish nofun h
  | toString => exact .of_finish nofun h
  | rxPush => exact execRxPush_effect h
  | rxStep =>
    cases h
    exact applyVerdict_effect s _
  | pinChange => exact execPinChange_effect h
  | tick =>
    cases h
    exact .ticked
  | dbCreate => exact execDbCreate_effect h
  | dbRemove => exact execDbRemove_effect h
  | dbExpire => exact execDbExpire_effect h
  | encCreate => exact execEncCreate_effect h
  | encRemove => exact execEncRemove_effect h
  | encRead => exact execEncRead_effect h
  | readReg => exact execReadReg_effect h
  | reset =>
    cases h
    exact .restarted

/-! ### Reads of the entry files after an operation -/

theorem State.dbAt_congr {s t : State} (h : t.db = s.db) (e : Nat) : t.dbAt e = s.dbAt e := by
  simp [State.dbAt, h]

/-- A write of an unarmed entry arms no slot, in range or not. -/
theorem State.dbAt_of_setDb_unarmed {s t : State} {j : Nat} {d : DbEntry} (ht : t.db = s.db.set j d)
    (hd : d.armed = false) {e : Nat} (h : (t.dbAt e).armed = true) : t.dbAt e = s.dbAt e := by
  have hset : t.dbAt e = (s.setDb j d).dbAt e := State.dbAt_congr ht e
  by_cases hj : j < s.db.length
  · rw [hset, State.dbAt_setDb s j e d hj] at h ⊢
    split at h
    · simp [hd] at h
    · next hne => simp [hne]
  · rw [hset]
    exact State.dbAt_congr (List.set_eq_of_length_le (Nat.le_of_not_lt hj)) e

theorem State.dbAt_of_replicate {t : State} {n : Nat} (h : t.db = List.replicate n DbEntry.reset) (e : Nat) :
    t.dbAt e = DbEntry.reset := by
  simp only [State.dbAt, h, List.getD_eq_getElem?_getD, List.getElem?_replicate]
  split <;> rfl

/-! ### Events of an encoder's reaction -/

theorem EncEntry.mem_edgeEvents {d : Phase} {e : Byte} {x : EncEntry} {ev : Event} (h : ev ∈ x.edgeEvents d e) :
    (∃ c, ev = .encCount e c) ∨ ev = .encCw e ∨ ev = .encCcw e := by
  unfold EncEntry.edgeEvents at h
  split at h
  · cases h
  · split at h
    · cases d <;> simp only [Phase.event, List.mem_cons, List.not_mem_nil, or_false] at h
      · exact h.imp (⟨_, ·⟩) .inl
      · exact h.imp (⟨_, ·⟩) .inr
    · cases h

/-- An event of a delivered change is an encoder event of a live entry whose pin1 changed (R233, R240). -/
theorem deliver_events_source {p : Nat} {v : Word} {s : State} {ev : Event}
    (h : ev ∈ (s.subscribers p).flatMap (subscriberEvents v (s.setPin p v))) :
    ∃ e, (s.encAt e).valid = true ∧ (s.encAt e).pin1 = p ∧
      ((∃ c, ev = .encCount (BitVec.ofNat 8 e) c) ∨ ev = .encCw (BitVec.ofNat 8 e) ∨
        ev = .encCcw (BitVec.ofNat 8 e)) := by
  obtain ⟨x, hx, hev⟩ := List.mem_flatMap.mp h
  have hsub := (s.mem_subscribers p x).mp hx
  cases x with
  | debounce e => cases hev
  | encoder e =>
    obtain ⟨hlive, hpin⟩ := hsub
    refine ⟨e, hlive, hpin, ?_⟩
    simp only [subscriberEvents, encoderEvents] at hev
    split at hev
    · cases hev
    · exact EncEntry.mem_edgeEvents hev

/-! ### What the parameters bound -/

theorem Config.nEnc_le_of_wf {c : Config} (h : c.wf = true) : c.nEnc ≤ 256 := by
  simp only [Config.wf, Bool.and_eq_true, decide_eq_true_eq] at h
  omega

theorem Config.rxCap_ge_of_wf {c : Config} (h : c.wf = true) {n : Nat} (hn : c.rxCap = some n) : 4 ≤ n := by
  simp only [Config.wf, Bool.and_eq_true, hn, rxCapWf, decide_eq_true_eq] at h
  omega

/-- The slot byte of a live encoder entry names its slot. -/
theorem State.Inv.enc_slot_lt {s : State} (h : s.Inv) {e : Nat} (hv : (s.encAt e).valid = true) : e < 256 := by
  have hlt : e < s.enc.length := s.encAt_valid_lt e hv
  have hlen : s.enc.length = s.cfg.nEnc := h.shaped.enc
  have hmax : s.cfg.nEnc ≤ 256 := Config.nEnc_le_of_wf h.cfg
  omega

theorem State.rxFull_iff (s : State) : s.rxFull = true ↔ s.cfg.rxCap = some s.rxbuf.length := by
  unfold State.rxFull
  split
  · next h => simp [h]
  · next c h => simp [h, eq_comm]

/-! ### The invariant under each effect -/

theorem State.powerOn_inv {c : Config} (h : c.wf = true) : (State.powerOn c).Inv where
  cfg := h
  shaped := ⟨by simp, by simp, by simp⟩
  rxBound := by simp
  noOverflow := by simp
  db d hd := List.eq_of_mem_replicate hd ▸ DbEntry.reset_sound _
  enc x hx := List.eq_of_mem_replicate hx ▸ EncEntry.reset_sound _
  seqs := by simp [State.liveSeqs, DbEntry.reset, EncEntry.reset]

theorem State.Inv.finish {s : State} (h : s.Inv) (st : Status) (d : ResultData) : (s.finish st d).Inv :=
  h.of_same rfl rfl h.rxBound h.noOverflow rfl rfl rfl

theorem State.Inv.advance {s : State} (h : s.Inv) : s.advance.Inv :=
  h.of_same (by simp) (by simp) (by simpa using h.rxBound) (by simpa using h.noOverflow) (by simp) (by simp) (by simp)

theorem State.Inv.fetched {s : State} (h : s.Inv) (rest : List Byte) : (s.fetched rest).Inv :=
  h.of_same (by simp) (by simp) (by simpa using h.rxBound) (by simpa using h.noOverflow) (by simp) (by simp) (by simp)

/-- A byte fits behind a buffer that is not full (R23). -/
theorem State.Inv.append {s : State} (h : s.Inv) (b : Byte) (hfull : s.rxFull = false) : (s.append b).Inv := by
  refine h.of_same rfl rfl (fun c hc => ?_) h.noOverflow rfl rfl rfl
  have hle : s.rxbuf.length ≤ c := h.rxBound c hc
  have hne : s.rxbuf.length ≠ c := fun heq => by
    simp [(s.rxFull_iff).mpr (heq ▸ hc)] at hfull
  simp only [State.append_rxbuf, List.length_append, List.length_singleton]
  omega

/-- A flush leaves room for the byte, and only a bounded buffer is flushed (R25, R160). -/
theorem State.Inv.flush_append {s : State} (h : s.Inv) (b : Byte) (hfull : s.rxFull = true) :
    (s.flush.append b).Inv := by
  have hcap : s.cfg.rxCap = some s.rxbuf.length := s.rxFull_iff.mp hfull
  refine h.of_same rfl rfl (fun c hc => ?_) (fun hnone => ?_) rfl rfl rfl
  · have hc4 : 4 ≤ c := Config.rxCap_ge_of_wf h.cfg hc
    simp only [State.append_rxbuf, State.flush_rxbuf, List.drop_length, List.nil_append, List.length_singleton]
    omega
  · simp [hcap] at hnone

/-- A drained buffer stays within its bound; the counts and the log are no part of the invariant. -/
theorem State.Inv.drain {s : State} (h : s.Inv) (n m : Nat) (evs : List Event) :
    (((s.consume n).addDropped m).emit evs).Inv := by
  refine h.of_same rfl rfl (fun c hcap => ?_) h.noOverflow rfl rfl rfl
  have hle : s.rxbuf.length ≤ c := h.rxBound c hcap
  simp only [State.emit_rxbuf, State.addDropped_rxbuf, State.consume_rxbuf, List.length_drop]
  omega

/-- A stored pin state stays known (R26). -/
theorem State.isSome_pinValue_setPin {s : State} {p : Nat} (v : Word) (hp : p < s.pinState.length) {q : Nat}
    (hq : q = p ∨ (s.pinValue q).isSome = true) : ((s.setPin p v).pinValue q).isSome = true := by
  rw [State.pinValue_setPin s p q v hp]
  split
  · rfl
  · next hne => exact hq.resolve_left hne

/-- Re-arming is sound on a pin of known state (R30, R204). -/
theorem DbEntry.Sound.rearm {s : State} {d : DbEntry} (h : d.Sound s) (now : Nat) (hlive : d.valid = true)
    (hknown : (s.pinValue d.pin).isSome = true) : (d.rearm now).Sound s where
  free hfree := by simp [DbEntry.rearm, hlive] at hfree
  pin := h.pin
  known _ := hknown
  stamped := h.stamped

theorem EncEntry.Sound.afterEdge {s : State} {x : EncEntry} (h : x.Sound s) (d : Phase) (hlive : x.valid = true) :
    (x.afterEdge d).Sound s where
  free hfree := by simp [EncEntry.afterEdge_valid, hlive] at hfree
  pins _ := by simpa only [EncEntry.afterEdge_pin1, EncEntry.afterEdge_pin2] using h.pins hlive
  distinct _ := by simpa only [EncEntry.afterEdge_pin1, EncEntry.afterEdge_pin2] using h.distinct hlive
  known _ := by simpa only [EncEntry.afterEdge_pin1, EncEntry.afterEdge_pin2] using h.known hlive
  stamped _ := by simpa only [EncEntry.afterEdge_seq] using h.stamped hlive

/-- A delivered change keeps the invariant: the pin becomes known, and each reaction keeps its entry's pins and `seq`
(R30, R32, R180). -/
theorem State.Inv.deliver {s u : State} (h : s.Inv) {p : Nat} {v : Word} (hp : p < s.cfg.nPins)
    (hu : deliver p v s = .ok u) : u.Inv := by
  obtain ⟨hframe, hdbLen, hencLen, hdb, henc, -, -⟩ := deliver_ok p v s u hu
  have hpin (q : Nat) : u.pinValue q = (s.setPin p v).pinValue q := by rw [hframe]; rfl
  have hcfg : u.cfg = s.cfg := by rw [hframe]
  have hpLen : p < s.pinState.length := h.shaped.pins ▸ hp
  have hknown {q : Nat} (hq : q = p ∨ (s.pinValue q).isSome = true) : (u.pinValue q).isSome = true := by
    rw [hpin]
    exact State.isSome_pinValue_setPin v hpLen hq
  have hseq : s.nextSeq ≤ u.nextSeq := by rw [hframe]
  have hdbSound (e : Nat) : (s.dbAt e).Sound u := (h.dbAt e).mono (by rw [hcfg]) (fun _ hq => hknown (.inr hq)) hseq
  have hencSound (e : Nat) : (s.encAt e).Sound u :=
    (h.encAt e).mono (by rw [hcfg]) (fun _ hq => hknown (.inr hq)) hseq
  have hseqs : u.liveSeqs = s.liveSeqs := by
    refine State.liveSeqs_congr s u hdbLen hencLen (fun e => ?_) (fun e => ?_)
    · rw [hdb e]
      split <;> exact ⟨rfl, rfl⟩
    · rw [henc e]
      split
      · split
        · exact ⟨rfl, rfl⟩
        · exact ⟨EncEntry.afterEdge_valid _ _, EncEntry.afterEdge_seq _ _⟩
      · exact ⟨rfl, rfl⟩
  refine ⟨hcfg ▸ h.cfg, ⟨?_, ?_, ?_⟩, ?_, ?_, ?_, ?_, hseqs ▸ h.seqs⟩
  · rw [hframe]
    simpa using h.shaped.pins
  · rw [hdbLen, hcfg]
    exact h.shaped.db
  · rw [hencLen, hcfg]
    exact h.shaped.enc
  · rw [hframe]
    exact h.rxBound
  · rw [hframe]
    exact h.noOverflow
  · intro d hd
    obtain ⟨e, -, rfl⟩ := u.mem_db d hd
    rw [hdb e]
    split
    · next hsub => exact (hdbSound e).rearm _ hsub.1 (hknown (.inl hsub.2))
    · exact hdbSound e
  · intro x hx
    obtain ⟨e, -, rfl⟩ := u.mem_enc x hx
    rw [henc e]
    split
    · next hsub =>
      split
      · exact hencSound e
      · exact (hencSound e).afterEdge _ hsub.1
    · exact hencSound e

/-- A fresh `seq` is none of the live ones (R28, R30). -/
theorem State.Inv.nodup_of_fill {s : State} (h : s.Inv) {l : List Nat} (hl : l.Perm (s.nextSeq :: s.liveSeqs)) :
    l.Nodup :=
  hl.nodup_iff.mpr (List.nodup_cons.mpr ⟨fun hmem => Nat.lt_irrefl _ (h.liveSeqs_lt _ hmem), h.seqs⟩)

theorem State.Inv.dbCreate {s : State} (h : s.Inv) {e pin : Byte} (delay : Word) (he : s.dbInRange e = true)
    (hp : s.pinInRange pin = true) (hfree : (s.dbAt e.toNat).valid = false) :
    (s.setDb e.toNat (DbEntry.fresh pin.toNat delay s.nextSeq)).bumpSeq.Inv := by
  have hslot : e.toNat < s.db.length := h.shaped.db ▸ of_decide_eq_true he
  refine h.setDb e.toNat _ rfl rfl rfl rfl (Nat.le_succ _) rfl rfl ?_
    (h.nodup_of_fill (s.liveSeqs_fillDb e.toNat (DbEntry.fresh pin.toNat delay s.nextSeq) hslot hfree rfl))
  exact ⟨nofun, fun _ => of_decide_eq_true hp, nofun, fun _ => Nat.lt_succ_self _⟩

theorem State.Inv.dbRemove {s : State} (h : s.Inv) (e : Nat) : (s.setDb e DbEntry.reset).Inv :=
  h.setDb e _ rfl rfl rfl rfl le_rfl rfl rfl (DbEntry.reset_sound _)
    (h.seqs.sublist (s.liveSeqs_freeDb e DbEntry.reset rfl))

/-- An expiry keeps its entry live with its pin and `seq`, and disarms it (R206). -/
theorem State.Inv.dbExpire {s : State} (h : s.Inv) {e : Nat} (cur : Word) (evs : List Event)
    (hlive : (s.dbAt e).valid = true) : ((s.setDb e ((s.dbAt e).expired cur)).emit evs).Inv := by
  have hslot : e < s.db.length := s.dbAt_valid_lt e hlive
  have hat (j : Nat) : ((s.setDb e ((s.dbAt e).expired cur)).emit evs).dbAt j =
      if j = e then (s.dbAt e).expired cur else s.dbAt j := State.dbAt_setDb s e j _ hslot
  have hseqs : ((s.setDb e ((s.dbAt e).expired cur)).emit evs).liveSeqs = s.liveSeqs := by
    refine State.liveSeqs_congr s _ (by simp) rfl (fun j => ?_) (fun j => ⟨rfl, rfl⟩)
    rw [hat j]
    split
    · next hj => exact hj ▸ ⟨rfl, rfl⟩
    · exact ⟨rfl, rfl⟩
  refine h.setDb e _ rfl rfl rfl rfl le_rfl rfl rfl ?_ (hseqs ▸ h.seqs)
  exact ⟨fun hfree => by simp [DbEntry.expired, hlive] at hfree, (h.dbAt e).pin, nofun, (h.dbAt e).stamped⟩

theorem State.Inv.encCreate {s : State} (h : s.Inv) {e pin1 pin2 : Byte} (he : s.encInRange e = true)
    (h1 : s.pinInRange pin1 = true) (h2 : s.pinInRange pin2 = true) (hfree : (s.encAt e.toNat).valid = false)
    (hne : pin1 ≠ pin2) (hk1 : (s.pinValue pin1.toNat).isSome = true) (hk2 : (s.pinValue pin2.toNat).isSome = true) :
    (s.setEnc e.toNat (EncEntry.fresh pin1.toNat pin2.toNat s.nextSeq)).bumpSeq.Inv := by
  have hslot : e.toNat < s.enc.length := h.shaped.enc ▸ of_decide_eq_true he
  refine h.setEnc e.toNat _ rfl rfl rfl rfl (Nat.le_succ _) rfl rfl ?_
    (h.nodup_of_fill (s.liveSeqs_fillEnc e.toNat (EncEntry.fresh pin1.toNat pin2.toNat s.nextSeq) hslot hfree rfl))
  exact ⟨nofun, fun _ => ⟨of_decide_eq_true h1, of_decide_eq_true h2⟩,
    fun _ heq => hne (BitVec.eq_of_toNat_eq heq), fun _ => ⟨hk1, hk2⟩, fun _ => Nat.lt_succ_self _⟩

theorem State.Inv.encRemove {s : State} (h : s.Inv) (e : Nat) : (s.setEnc e EncEntry.reset).Inv :=
  h.setEnc e _ rfl rfl rfl rfl le_rfl rfl rfl (EncEntry.reset_sound _)
    (h.seqs.sublist (s.liveSeqs_freeEnc e EncEntry.reset rfl))

/-- Every effect keeps the invariant (R23, R25, R28, R30, R32). -/
theorem OpEffect.inv {i : Instr} {s t : State} (heff : OpEffect s i t) (h : s.Inv) : t.Inv := by
  cases heff with
  | answered st d => exact h.finish st d
  | pushed b st d hfull => exact (h.append b hfull).finish st d
  | flushed b st d hfull => exact (h.flush_append b hfull).finish st d
  | stepped n m evs st d => exact (h.drain n m evs).finish st d
  | delivered p v u hp hv hu => exact (h.deliver (of_decide_eq_true hp) hu).finish _ _
  | ticked => exact h.of_same rfl rfl h.rxBound h.noOverflow rfl rfl rfl
  | dbCreated e pin delay he hp hfree => exact (h.dbCreate delay he hp hfree).finish _ _
  | dbRemoved e => exact (h.dbRemove e.toNat).finish _ _
  | dbExpired e cur hen => exact h.dbExpire cur _ ((s.expiryEnabled_iff e).mp hen).1
  | encCreated e pin1 pin2 he h1 h2 hfree hne hk1 hk2 =>
    exact (h.encCreate he h1 h2 hfree hne hk1 hk2).finish _ _
  | encRemoved e => exact (h.encRemove e.toNat).finish _ _
  | restarted =>
    have hpower := State.powerOn_inv h.cfg
    exact hpower.of_same rfl rfl hpower.rxBound hpower.noOverflow rfl rfl rfl

/-- An operation that answers a next state keeps the invariant. -/
theorem exec_keeps_inv {i : Instr} {s t : State} (h : s.Inv) (hx : exec i s = .next t) : t.Inv :=
  (exec_effect hx).inv h

/-! ### The obligations -/

/-- Settles O49: every slot is at its reset value and no `seq` is live. -/
theorem powerOnHoldsTheInvariant : Obligations.PowerOnHoldsTheInvariant :=
  ⟨fun _ h => State.powerOn_inv h, State.powerOn_inv (by decide)⟩

/-- Settles O50: fetching touches no part of the invariant, and every effect of an operation keeps it. -/
theorem stepKeepsTheInvariant : Obligations.StepKeepsTheInvariant := by
  intro s t h hstep
  rcases step_cases s with ⟨e, -, hx⟩ | ⟨i, rest, -, -, hx⟩ | ⟨op, rest, -, hx⟩ | hx <;> rw [hx] at hstep
  · exact exec_keeps_inv h.advance hstep
  · exact exec_keeps_inv (h.fetched rest) hstep
  · cases hstep
    exact (h.fetched rest).finish _ _
  · cases hstep
    exact h

/-- Settles O39: only a delivered change writes an armed entry, and it re-arms the live entries of its own pin. -/
theorem onlyItsPinArmsAnEntry : Obligations.OnlyItsPinArmsAnEntry := by
  intro i s t e hx harmed
  have kept (heq : t.dbAt e = s.dbAt e) : (s.dbAt e).armed = true ∧ (t.dbAt e).deadline = (s.dbAt e).deadline :=
    ⟨heq ▸ harmed, by rw [heq]⟩
  cases exec_effect hx with
  | answered | pushed | flushed | stepped | ticked | encCreated | encRemoved =>
    exact .inl (kept (State.dbAt_congr rfl e))
  | dbCreated | dbRemoved | dbExpired => exact .inl (kept (State.dbAt_of_setDb_unarmed rfl rfl harmed))
  | restarted =>
    rw [State.dbAt_of_replicate rfl] at harmed
    cases harmed
  | delivered p v u hp hv hu =>
    obtain ⟨-, -, -, hdb, -⟩ := deliver_ok p.toNat v s u hu
    have hat : u.done.dbAt e = _ := hdb e
    split at hat
    · next hsub => exact .inr ⟨p, v, rfl, hsub.1, hsub.2, hv, by rw [hat]; rfl⟩
    · exact .inl (kept hat)

/-- Settles O54: each effect names the fields it writes, and a delivered change is framed by `deliver_ok`. -/
theorem eachElementHasItsWriters : Obligations.EachElementHasItsWriters := by
  intro i s t hx
  cases exec_effect hx with
  | answered st d hi => simp [hi]
  | delivered p v u hp hv hu =>
    obtain ⟨hframe, -⟩ := deliver_ok p.toNat v s u hu
    rw [hframe]
    simp
  | _ => simp

/-- Settles O55: each effect names what it appends, and a delivered change logs only for the live encoders on its
pin. -/
theorem eventsComeFromTheirSources : Obligations.EventsComeFromTheirSources := by
  intro i s t h hx
  cases exec_effect hx with
  | stepped n m evs st d hevs =>
    refine ⟨evs, rfl, fun ev hev => ?_⟩
    rcases hevs ev hev with ⟨id, p, rfl⟩ | ⟨k, rfl⟩
    · rfl
    · exact .inl rfl
  | flushed b => exact ⟨[.dropped (u32 s.rxbuf.length)], rfl, by simp⟩
  | dbExpired e cur =>
    refine ⟨(s.dbAt e.toNat).expiryEvents cur e, rfl, fun ev hev => ?_⟩
    unfold DbEntry.expiryEvents at hev
    split at hev
    · cases hev
    · rw [List.mem_singleton.mp hev]
  | delivered p v u hp hv hu =>
    obtain ⟨-, -, -, -, -, hevents, -⟩ := deliver_ok p.toNat v s u hu
    refine ⟨_, hevents, fun ev hev => ?_⟩
    obtain ⟨e, hlive, hpin, hkind⟩ := deliver_events_source hev
    have hslot : (BitVec.ofNat 8 e).toNat = e := by
      rw [BitVec.toNat_ofNat, Nat.mod_eq_of_lt (h.enc_slot_lt hlive)]
    have hsource : ∃ p' v', Instr.pinChange p v = .pinChange p' v' ∧
        (s.encAt (BitVec.ofNat 8 e).toNat).valid = true ∧ (s.encAt (BitVec.ofNat 8 e).toNat).pin1 = p'.toNat :=
      ⟨p, v, rfl, by rwa [hslot], by rwa [hslot]⟩
    rcases hkind with ⟨c, rfl⟩ | rfl | rfl <;> exact hsource
  | _ => exact ⟨[], by simp, by simp⟩

end Sys2Proof.Machine

/-! PROOF. The codec (40_codec.md): framing and parsing, the 7-bit groups of a value, and the byte pairs of a string. -/

namespace Sys2Proof.Machine

/-! ### Answers that write only `result` -/

theorem State.next_finish_inj {s : State} {st st' : Status} {d d' : ResultData} :
    (.next (s.finish st d) : Out) = .next (s.finish st' d') ↔ st = st' ∧ d = d' := by
  constructor
  · intro h
    have hr : (s.finish st d).result = (s.finish st' d').result := congrArg State.result (Host.Outcome.next.inj h)
    simpa using hr
  · rintro ⟨rfl, rfl⟩
    rfl

/-! ### Identifier shapes (R83) -/

theorem shapeOf_eq_std_iff (id : Word) (b : Byte) :
    shapeOf id = .std b ↔ 0x80 ≤ b.toNat ∧ b ≠ 0xF0#8 ∧ b ≠ 0xF7#8 ∧ id = stdId b := by
  have hb := b.isLt
  have hid := id.isLt
  rw [shapeOf_nat]
  simp only [stdId, ← BitVec.toNat_inj, BitVec.toNat_setWidth, BitVec.toNat_ofNat, ne_eq]
  constructor
  · intro h
    split at h
    · next hstd =>
      cases h
      simp only [BitVec.toNat_ofNat]
      omega
    · split at h
      · cases h
      · split at h <;> cases h
  · rintro ⟨h1, h2, h3, h4⟩
    rw [if_pos (by omega)]
    congr 1
    apply BitVec.eq_of_toNat_eq
    simp only [BitVec.toNat_ofNat]
    omega

theorem shapeOf_eq_sysex_iff (id : Word) (t : Byte) :
    shapeOf id = .sysex t ↔ 1 ≤ t.toNat ∧ t.toNat ≤ 0x7F ∧ id = sysexId t := by
  have ht := t.isLt
  have hid := id.isLt
  rw [shapeOf_nat]
  constructor
  · intro h
    split at h
    · cases h
    · split at h
      · next hs =>
        cases h
        have hlt : (BitVec.ofNat 8 id.toNat).toNat < 0x80 := by simp only [BitVec.toNat_ofNat]; omega
        refine ⟨?_, by omega, BitVec.eq_of_toNat_eq ?_⟩
        · simp only [BitVec.toNat_ofNat]; omega
        · rw [sysexId, sysexId_toNat _ hlt, BitVec.toNat_ofNat]; omega
      · split at h <;> cases h
  · rintro ⟨h1, h2, rfl⟩
    have hn : (sysexId t).toNat = 0xF000 + t.toNat := sysexId_toNat t (by omega)
    rw [if_neg (by omega), if_pos (by omega)]
    congr 1
    apply BitVec.eq_of_toNat_eq
    simp only [BitVec.toNat_ofNat]
    omega

theorem shapeOf_eq_ext_iff (id : Word) (x : BitVec 14) :
    shapeOf id = .ext x ↔ id = 0x00F00000#32 ||| x.setWidth 32 := by
  have hx := x.isLt
  have hid := id.isLt
  rw [shapeOf_nat]
  constructor
  · intro h
    split at h
    · cases h
    · split at h
      · cases h
      · split at h
        · next he =>
          cases h
          apply BitVec.eq_of_toNat_eq
          rw [extId_toNat, BitVec.toNat_ofNat]
          omega
        · cases h
  · rintro rfl
    have hn := extId_toNat x
    rw [if_neg (by omega), if_neg (by omega), if_pos (by omega)]
    congr 1
    apply BitVec.eq_of_toNat_eq
    simp only [BitVec.toNat_ofNat]
    omega

/-! ### FRAME (R120) -/

theorem frameBytes_of_std {id : Word} {b : Byte} (h : shapeOf id = .std b) (payload : List Byte) :
    frameBytes id payload = some (b :: payload) := by
  simp [frameBytes, h]

theorem frameBytes_of_sysex {id : Word} {t : Byte} (h : shapeOf id = .sysex t) (payload : List Byte) :
    frameBytes id payload = some ([0xF0#8, t] ++ payload ++ [0xF7#8]) := by
  simp [frameBytes, h, sysexStart, sysexEnd]

theorem frameBytes_of_ext {id : Word} {x : BitVec 14} (h : shapeOf id = .ext x) (payload : List Byte) :
    frameBytes id payload =
      some ([0xF0#8, 0x00#8, BitVec.ofNat 8 (x.toNat % 128), BitVec.ofNat 8 (x.toNat / 128)] ++ payload ++ [0xF7#8]) := by
  have hx := x.isLt
  have hlo : (x.extractLsb' 0 7).setWidth 8 = BitVec.ofNat 8 (x.toNat % 128) := BitVec.eq_of_toNat_eq (by simp)
  have hhi : (x.extractLsb' 7 7).setWidth 8 = BitVec.ofNat 8 (x.toNat / 128) := by
    apply BitVec.eq_of_toNat_eq
    simp only [BitVec.toNat_setWidth, BitVec.extractLsb'_toNat, BitVec.toNat_ofNat, Nat.shiftRight_eq_div_pow]
    omega
  simp [frameBytes, h, hlo, hhi, sysexStart, sysexEnd]

theorem frameBytes_of_invalid {id : Word} (h : shapeOf id = .invalid) (payload : List Byte) :
    frameBytes id payload = none := by
  simp [frameBytes, h]

theorem exec_frame_of_some {id : Word} {payload bytes : List Byte} (h : frameBytes id payload = some bytes) (s : State) :
    exec (.frame id payload) s = .next (s.finish .ok (.bytes bytes)) := by
  simp [exec, execFrame, h]

theorem exec_frame_of_none {id : Word} {payload : List Byte} (h : frameBytes id payload = none) (s : State) :
    exec (.frame id payload) s = .next (s.finish .invalidId .empty) := by
  simp [exec, execFrame, h, refuse]

/-- Settles O9: the shape of the id decides the bytes. -/
theorem frameBuildsTheWireBytes : Obligations.FrameBuildsTheWireBytes := by
  intro s payload
  refine ⟨fun b h80 hF0 hF7 => ?_, fun t h1 h7F => ?_, fun x => ?_, fun id hstd hsysex hext => ?_⟩
  · exact exec_frame_of_some (frameBytes_of_std ((shapeOf_eq_std_iff _ b).mpr ⟨h80, hF0, hF7, rfl⟩) payload) s
  · exact exec_frame_of_some (frameBytes_of_sysex ((shapeOf_eq_sysex_iff _ t).mpr ⟨h1, h7F, rfl⟩) payload) s
  · exact exec_frame_of_some (frameBytes_of_ext ((shapeOf_eq_ext_iff _ x).mpr rfl) payload) s
  · cases hshape : shapeOf id with
    | std b =>
      obtain ⟨h80, hF0, hF7, hid⟩ := (shapeOf_eq_std_iff id b).mp hshape
      exact absurd hid (hstd b h80 hF0 hF7)
    | sysex t =>
      obtain ⟨h1, h7F, hid⟩ := (shapeOf_eq_sysex_iff id t).mp hshape
      exact absurd hid (hsysex t h1 h7F)
    | ext x => exact absurd ((shapeOf_eq_ext_iff id x).mp hshape) (hext x)
    | invalid => exact exec_frame_of_none (frameBytes_of_invalid hshape payload) s

/-! ### PARSE by its lead byte (R124) -/

theorem shortBuffer_iff (c : Config) (b : Byte) (a : Nat) :
    shortBuffer c b a = true ↔ a < 3 ∧ ¬ (c.isStdId b = true ∧ 1 + c.stdPayloadLen b ≤ a) := by
  simp [shortBuffer, imp_iff_not_or]

theorem isNoise_eq_false_of_std {c : Config} {b : Byte} (h : c.isStdId b = true) : isNoise c b = false := by
  simp [isNoise, h]

theorem isNoise_sysexStart (c : Config) : isNoise c 0xF0#8 = false := by simp [isNoise, sysexStart]

theorem isNoise_eq_false_of_stray (c : Config) {b : Byte} (h : b = 0xF7#8 ∨ b.toNat < 0x80) : isNoise c b = false := by
  rcases h with rfl | h
  · simp [isNoise, sysexEnd]
  · simp [isNoise, (isData_iff b).mpr h]

/-- The lead bytes that are not noise: a standard id, the sysex start, or a stray byte (R125). -/
theorem lead_cases {c : Config} {b : Byte} (h : isNoise c b = false) :
    c.isStdId b = true ∨ b = 0xF0#8 ∨ b = 0xF7#8 ∨ b.toNat < 0x80 := by
  by_contra hn
  simp only [not_or, not_lt, Bool.not_eq_true] at hn
  obtain ⟨hstd, hF0, hF7, h80⟩ := hn
  simp [(isNoise_iff c b).mpr ⟨h80, hF0, hF7, hstd⟩] at h

theorem parse_short {c : Config} {b : Byte} {body : List Byte} (h : isNoise c b = false)
    (hs : shortBuffer c b (body.length + 1) = true) : parse c (b :: body) = .needMore 0 := by
  rw [parse_lead c b body h, if_pos hs]

/-- A standard id's payload has at most two bytes, so only a message that is not whole is short (R126, R127). -/
theorem parse_std {c : Config} (hc : c.wf = true) {b : Byte} (hb : c.isStdId b = true) (body : List Byte) :
    parse c (b :: body) = if body.length < c.stdPayloadLen b then .needMore 0 else parseStd c 0 b body := by
  obtain ⟨-, -, -, hk⟩ := Config.std_of_wf hc hb
  have hshort : shortBuffer c b (body.length + 1) = true ↔ body.length < c.stdPayloadLen b := by
    rw [shortBuffer_iff]
    simp only [hb, true_and]
    omega
  rw [parse_lead c b body (isNoise_eq_false_of_std hb), if_pos hb]
  exact ite_congr (propext hshort) (fun _ => rfl) (fun _ => rfl)

theorem shortBuffer_of_not_std {c : Config} {b : Byte} (hb : c.isStdId b = false) (n : Nat) :
    shortBuffer c b (n + 1) = decide (n < 2) := by
  simp [shortBuffer, hb, Nat.lt_succ_iff]

theorem isStdId_eq_false_of_marker_or_data {c : Config} (hc : c.wf = true) {b : Byte}
    (h : b = 0xF0#8 ∨ b = 0xF7#8 ∨ b.toNat < 0x80) : c.isStdId b = false := by
  by_contra hb
  obtain ⟨h80, hF0, hF7, -⟩ := Config.std_of_wf hc ((Bool.not_eq_false _).mp hb)
  rcases h with h | h | h
  · exact hF0 h
  · exact hF7 h
  · omega

theorem parse_sysex {c : Config} (hc : c.wf = true) (body : List Byte) :
    parse c (0xF0#8 :: body) = if body.length < 2 then .needMore 0 else parseSysex 0 body := by
  have hstd : c.isStdId 0xF0#8 = false := isStdId_eq_false_of_marker_or_data hc (.inl rfl)
  rw [parse_lead c _ body (isNoise_sysexStart c)]
  simp only [shortBuffer_of_not_std hstd, hstd, sysexStart, decide_eq_true_eq, Bool.false_eq_true, if_false, if_true]

theorem parse_stray {c : Config} (hc : c.wf = true) {b : Byte} (hb : b = 0xF7#8 ∨ b.toNat < 0x80) (body : List Byte) :
    parse c (b :: body) = if body.length < 2 then .needMore 0 else .malformed 0 1 := by
  have hstd : c.isStdId b = false := isStdId_eq_false_of_marker_or_data hc (.inr hb)
  have hne : b ≠ sysexStart := by
    rintro rfl
    exact absurd hb (by decide)
  rw [parse_lead c b body (isNoise_eq_false_of_stray c hb)]
  simp only [shortBuffer_of_not_std hstd, hstd, hne, decide_eq_true_eq, Bool.false_eq_true, if_false]

/-! ### Standard messages (R127) -/

theorem parseStd_of_data {c : Config} {b : Byte} {payload : List Byte} (hk : payload.length = c.stdPayloadLen b)
    (hd : ∀ x ∈ payload, isData x = true) (s : Nat) (rest : List Byte) :
    parseStd c s b (payload ++ rest) = .msg s (1 + payload.length) (stdId b) payload := by
  have hspan : payload.takeWhile isData = payload := List.takeWhile_eq_self_iff.mpr hd
  simp [parseStd, ← hk, hspan]

theorem parseStd_of_status {c : Config} {b x : Byte} {pre post : List Byte}
    (hk : (pre ++ x :: post).length = c.stdPayloadLen b) (hpre : ∀ y ∈ pre, isData y = true) (hx : isData x = false)
    (s : Nat) (rest : List Byte) : parseStd c s b (pre ++ x :: post ++ rest) = .malformed s (pre.length + 1) := by
  have hspan : (pre ++ x :: post).takeWhile isData = pre := takeWhile_data _ _ hpre (.inr ⟨x, post, rfl, hx⟩)
  simp only [parseStd, ← hk, List.take_left, hspan]
  rw [if_pos (by simp)]

/-- What a MSG verdict on a standard message says of the body. -/
theorem parseStd_msg {c : Config} {s k n : Nat} {b : Byte} {body p : List Byte} {id : Word}
    (h : parseStd c s b body = .msg k n id p) : n = 1 + c.stdPayloadLen b ∧ ∀ x ∈ p, isData x = true := by
  simp only [parseStd] at h
  split at h
  · cases h
  · next hm =>
    cases h
    refine ⟨rfl, List.takeWhile_eq_self_iff.mp ((List.takeWhile_prefix _).eq_of_length_le ?_)⟩
    exact (List.length_take_le _ _).trans (not_lt.mp hm)

theorem parseStd_append {c : Config} {b : Byte} {body : List Byte} (hk : c.stdPayloadLen b ≤ body.length) (s : Nat)
    (more : List Byte) : parseStd c s b (body ++ more) = parseStd c s b body := by
  simp only [parseStd, List.take_append_of_le_length hk]

/-! ### Sysex frames (R128) -/

theorem sysexVerdict_nil (s len : Nat) : sysexVerdict s len [] = .malformed s len := rfl

theorem sysexVerdict_type {t : Byte} (ht : t ≠ 0x00#8) (s len : Nat) (payload : List Byte) :
    sysexVerdict s len (t :: payload) = .msg s len (sysexId t) payload := by
  simp [sysexVerdict, ht]

theorem sysexVerdict_ext (s len : Nat) (lo hi : Byte) (payload : List Byte) :
    sysexVerdict s len (0x00#8 :: lo :: hi :: payload) = .msg s len (extId lo hi) payload := rfl

/-- An extended id cut short by the end marker. -/
theorem sysexVerdict_of_ext_short {data : List Byte} (h0 : data.head? = some 0x00#8) (h3 : data.length < 3) (s len : Nat) :
    sysexVerdict s len data = .malformed s len := by
  match data, h0, h3 with
  | [_], rfl, _ => rfl
  | [_, _], rfl, _ => rfl

/-- The verdict of a terminated frame is malformed or a message, of the length given. -/
theorem sysexVerdict_cases (s len : Nat) (data : List Byte) :
    sysexVerdict s len data = .malformed s len ∨ ∃ id p, sysexVerdict s len data = .msg s len id p := by
  cases data with
  | nil => exact .inl rfl
  | cons t rest =>
    by_cases ht : t = 0x00#8
    · subst ht
      match rest with
      | [] | [_] => exact .inl rfl
      | _ :: _ :: _ => exact .inr ⟨_, _, rfl⟩
    · exact .inr ⟨_, _, sysexVerdict_type ht s len rest⟩

/-- A sysex body ends at its first status byte `x`: the end marker gives its message, another byte makes it malformed. -/
theorem parseSysex_of_status {data rest : List Byte} {x : Byte} (hd : ∀ y ∈ data, isData y = true) (hx : isData x = false)
    (hext : data.head? = some 0x00#8 → 2 ≤ data.length + rest.length) :
    parseSysex 0 (data ++ x :: rest) =
      if x ≠ sysexEnd then .malformed 0 (data.length + 1) else sysexVerdict 0 (data.length + 2) data := by
  rw [parseSysex_cut data _ hd (.inr ⟨x, rest, rfl, hx⟩), if_neg]
  rintro ⟨h0, hshort⟩
  rw [List.length_append, List.length_cons] at hshort
  cases data with
  | nil =>
    cases h0
    exact absurd hx (by decide)
  | cons d data =>
    have := hext h0
    omega

theorem parseSysex_of_data {data : List Byte} (hd : ∀ y ∈ data, isData y = true) : parseSysex 0 data = .needMore 0 := by
  have h := parseSysex_cut data [] hd (.inl rfl)
  rwa [List.append_nil, ite_self] at h

/-- Every sysex body needs more bytes or is one of `parseSysex_of_status`. -/
theorem parseSysex_cases (body : List Byte) :
    parseSysex 0 body = .needMore 0 ∨
      ∃ data x rest, body = data ++ x :: rest ∧ (∀ y ∈ data, isData y = true) ∧ isData x = false ∧
        (data.head? = some 0x00#8 → 2 ≤ data.length + rest.length) := by
  obtain ⟨data, tail, rfl, hd, -, rfl | ⟨x, rest, rfl, hx⟩⟩ := span_data body
  · rw [List.append_nil]
    exact .inl (parseSysex_of_data hd)
  · by_cases hext : data.head? = some 0x00#8 → 2 ≤ data.length + rest.length
    · exact .inr ⟨data, x, rest, rfl, hd, hx, hext⟩
    · obtain ⟨h0, hshort⟩ := Classical.not_imp.mp hext
      refine .inl ?_
      rw [parseSysex_cut data _ hd (.inr ⟨x, rest, rfl, hx⟩), if_pos]
      refine ⟨by rw [List.head?_append, h0]; rfl, ?_⟩
      rw [List.length_append, List.length_cons]
      omega

theorem parse_sysex_of_status {c : Config} (hc : c.wf = true) {data rest : List Byte} {x : Byte}
    (hd : ∀ y ∈ data, isData y = true) (hx : isData x = false) (hlen : 3 ≤ data.length + 2 + rest.length)
    (hext : data.head? = some 0x00#8 → 4 ≤ data.length + 2 + rest.length) :
    parse c (0xF0#8 :: (data ++ x :: rest)) =
      if x ≠ sysexEnd then .malformed 0 (data.length + 1) else sysexVerdict 0 (data.length + 2) data := by
  have hlong : ¬ (data ++ x :: rest).length < 2 := by
    rw [List.length_append, List.length_cons]
    omega
  rw [parse_sysex hc, if_neg hlong]
  exact parseSysex_of_status hd hx fun h0 => by have := hext h0; omega

theorem parse_sysex_of_data {c : Config} (hc : c.wf = true) {data : List Byte} (hd : ∀ y ∈ data, isData y = true) :
    parse c (0xF0#8 :: data) = .needMore 0 := by
  rw [parse_sysex hc, parseSysex_of_data hd, ite_self]

/-- A sysex message ends at the first status byte, which is the end marker. -/
theorem parse_sysex_msg {c : Config} (hc : c.wf = true) {body p : List Byte} {k n : Nat} {id : Word}
    (h : parse c (0xF0#8 :: body) = .msg k n id p) :
    ∃ data rest, body = data ++ 0xF7#8 :: rest ∧ (∀ x ∈ data, isData x = true) ∧ n = data.length + 2 := by
  rw [parse_sysex hc] at h
  split at h
  · cases h
  · obtain hmore | ⟨data, x, rest, rfl, hd, hx, hext⟩ := parseSysex_cases body
    · rw [hmore] at h
      cases h
    · rw [parseSysex_of_status hd hx hext] at h
      split_ifs at h with hend
      refine ⟨data, rest, by rw [not_not.mp hend]; rfl, hd, ?_⟩
      rcases sysexVerdict_cases 0 (data.length + 2) data with hv | ⟨id', p', hv⟩
      · rw [hv] at h
        cases h
      · rw [hv] at h
        cases h
        rfl

/-! ### The bounds of a verdict (R141) -/

/-- A verdict on `n` bytes that skips none of them: NEED_MORE, or one that takes at least one byte and at most all. -/
def Verdict.AtHead (n : Nat) (v : Verdict) : Prop :=
  v = .needMore 0 ∨ (v.skip = 0 ∧ 1 ≤ v.len ∧ v.len ≤ n)

theorem Verdict.AtHead.skip_eq_zero {n : Nat} {v : Verdict} (h : v.AtHead n) : v.skip = 0 := by
  rcases h with rfl | ⟨hskip, -⟩
  · rfl
  · exact hskip

@[simp] theorem Verdict.skip_shift (n : Nat) (v : Verdict) : (v.shift n).skip = n + v.skip := by
  cases v <;> rfl

@[simp] theorem Verdict.len_shift (n : Nat) (v : Verdict) : (v.shift n).len = v.len := by
  cases v <;> rfl

@[simp] theorem Verdict.status_shift (n : Nat) (v : Verdict) : (v.shift n).status = v.status := by
  cases v <;> rfl

theorem parseStd_atHead (c : Config) (b : Byte) (body : List Byte) :
    (parseStd c 0 b body).AtHead (body.length + 1) := by
  have hm : ((body.take (c.stdPayloadLen b)).takeWhile isData).length ≤ body.length :=
    (List.takeWhile_prefix _).length_le.trans (List.length_take_le' _ _)
  simp only [parseStd]
  split <;> exact .inr ⟨rfl, by simp only [Verdict.len]; omega⟩

theorem parseSysex_atHead (body : List Byte) : (parseSysex 0 body).AtHead (body.length + 1) := by
  obtain hmore | ⟨data, x, rest, rfl, hd, hx, hext⟩ := parseSysex_cases body
  · exact .inl hmore
  · have hlen : (data ++ x :: rest).length = data.length + 1 + rest.length := by
      rw [List.length_append, List.length_cons]
      omega
    rw [parseSysex_of_status hd hx hext, hlen]
    split
    · exact .inr ⟨rfl, by simp only [Verdict.len]; omega⟩
    · rcases sysexVerdict_cases 0 (data.length + 2) data with hv | ⟨id, p, hv⟩ <;>
        exact .inr (by rw [hv]; exact ⟨rfl, by simp only [Verdict.len]; omega⟩)

theorem parse_lead_atHead {c : Config} {b : Byte} (h : isNoise c b = false) (body : List Byte) :
    (parse c (b :: body)).AtHead (body.length + 1) := by
  rw [parse_lead c b body h]
  split
  · exact .inl rfl
  · split
    · exact parseStd_atHead c b body
    · split
      · exact parseSysex_atHead body
      · exact .inr ⟨rfl, le_rfl, Nat.le_add_left 1 _⟩

theorem parse_bounds (c : Config) (buf : List Byte) :
    (parse c buf).skip + (parse c buf).len ≤ buf.length ∧
      ((parse c buf).status = .needMore ∨ 1 ≤ (parse c buf).len) := by
  obtain ⟨noise, tail, rfl, hnoise, rfl | ⟨b, r, rfl, hb⟩⟩ := span_noise c buf
  · rw [parse_noise c noise [] hnoise, parse_nil]
    exact ⟨by simp [Verdict.shift, Verdict.skip, Verdict.len], .inl rfl⟩
  · simp only [parse_noise c noise _ hnoise, Verdict.skip_shift, Verdict.len_shift, Verdict.status_shift,
      List.length_append, List.length_cons]
    obtain hmore | ⟨hskip, hpos, hle⟩ := parse_lead_atHead hb r
    · rw [hmore]
      exact ⟨by simp [Verdict.skip, Verdict.len], .inl rfl⟩
    · exact ⟨by omega, .inr hpos⟩

/-! ### More bytes (R141) -/

theorem parseSysex_append (body more : List Byte) :
    parseSysex 0 body = .needMore 0 ∨ parseSysex 0 (body ++ more) = parseSysex 0 body := by
  obtain hmore | ⟨data, x, rest, rfl, hd, hx, hext⟩ := parseSysex_cases body
  · exact .inl hmore
  · refine .inr ?_
    have hext' : data.head? = some 0x00#8 → 2 ≤ data.length + (rest ++ more).length := fun h0 => by
      have := hext h0
      rw [List.length_append]
      omega
    rw [List.append_assoc, List.cons_append, parseSysex_of_status hd hx hext', parseSysex_of_status hd hx hext]

/-- Where `v` needs `k` bytes and more bytes never change it but by ending its waiting, the same holds with the bytes
counted: `m` of them first, and `n` later. -/
theorem needMore_or_eq_of_le {k m n : Nat} (hmn : m ≤ n) {v w : Verdict} (h : k ≤ m → v = .needMore 0 ∨ w = v) :
    (if m < k then .needMore 0 else v) = Verdict.needMore 0 ∨
      (if n < k then .needMore 0 else w) = (if m < k then .needMore 0 else v) := by
  by_cases hk : m < k
  · exact .inl (if_pos hk)
  · rw [if_neg hk, if_neg (by omega)]
    exact h (not_lt.mp hk)

/-- The same verdict with more bytes, unless it waits for them: one case per kind of lead byte. -/
theorem parse_lead_append {c : Config} (hc : c.wf = true) {b : Byte} (h : isNoise c b = false) (body more : List Byte) :
    parse c (b :: body) = .needMore 0 ∨ parse c (b :: (body ++ more)) = parse c (b :: body) := by
  have hlen : body.length ≤ (body ++ more).length := by simp
  obtain hstd | rfl | hstray := lead_cases h
  · rw [parse_std hc hstd, parse_std hc hstd]
    exact needMore_or_eq_of_le hlen fun hk => .inr (parseStd_append hk 0 more)
  · rw [parse_sysex hc, parse_sysex hc]
    exact needMore_or_eq_of_le hlen fun _ => parseSysex_append body more
  · rw [parse_stray hc hstray, parse_stray hc hstray]
    exact needMore_or_eq_of_le hlen fun _ => .inr rfl

/-- A verdict stands with more bytes, unless it waits for them; then they skip no less noise. -/
theorem parse_append {c : Config} (hc : c.wf = true) (buf more : List Byte) :
    (∃ k, parse c buf = .needMore k ∧ k ≤ (parse c (buf ++ more)).skip) ∨ parse c (buf ++ more) = parse c buf := by
  obtain ⟨noise, tail, rfl, hnoise, htail⟩ := span_noise c buf
  rw [List.append_assoc, parse_noise c noise tail hnoise, parse_noise c noise (tail ++ more) hnoise]
  rcases htail with rfl | ⟨b, r, rfl, hb⟩
  · exact .inl ⟨noise.length, rfl, by simp⟩
  · obtain hmore | hsame := parse_lead_append hc hb r more
    · exact .inl ⟨noise.length, by rw [hmore]; rfl, by simp⟩
    · exact .inr (by rw [List.cons_append, hsame])

/-! ### Framed messages parsed back (R123) -/

theorem isData_of_lt {l : List Byte} (h : ∀ x ∈ l, x.toNat < 0x80) : ∀ x ∈ l, isData x = true :=
  fun x hx => (isData_iff x).mpr (h x hx)

theorem isData_eq_false_of_le {x : Byte} (h : 0x80 ≤ x.toNat) : isData x = false := by
  simp [isData, h]

/-- The extended id in two data bytes as a number (R65). -/
theorem extId_eq {lo : Byte} (hlo : lo.toNat < 0x80) (hi : Byte) :
    extId lo hi = 0x00F00000#32 ||| u32 (lo.toNat + 128 * hi.toNat) := by
  have hb := hi.isLt
  have hor := Nat.two_pow_add_eq_or_of_lt (i := 7) (b := lo.toNat) (by omega) hi.toNat
  rw [extId]
  congr 1
  apply BitVec.eq_of_toNat_eq
  simp only [BitVec.toNat_or, BitVec.toNat_shiftLeft, BitVec.toNat_setWidth, BitVec.toNat_ofNat, Nat.shiftLeft_eq]
  rw [Nat.mod_eq_of_lt (a := lo.toNat) (by omega), Nat.mod_eq_of_lt (a := hi.toNat) (by omega),
    Nat.mod_eq_of_lt (by omega), Nat.mod_eq_of_lt (by omega), Nat.or_comm, Nat.mul_comm hi.toNat]
  omega

theorem extId_split (x : BitVec 14) :
    extId (BitVec.ofNat 8 (x.toNat % 128)) (BitVec.ofNat 8 (x.toNat / 128)) = 0x00F00000#32 ||| x.setWidth 32 := by
  have hx := x.isLt
  have hlo : (BitVec.ofNat 8 (x.toNat % 128)).toNat = x.toNat % 128 := by rw [BitVec.toNat_ofNat]; omega
  have hhi : (BitVec.ofNat 8 (x.toNat / 128)).toNat = x.toNat / 128 := by rw [BitVec.toNat_ofNat]; omega
  rw [extId_eq (by omega), hlo, hhi, Nat.mod_add_div]
  congr 1
  exact BitVec.eq_of_toNat_eq (by simp)

/-- The message of a standard id reads back exactly when the id is recognised and its payload is whole and data. -/
theorem parse_std_frame_iff {c : Config} (hc : c.wf = true) {b : Byte} (h80 : 0x80 ≤ b.toNat) (hF0 : b ≠ 0xF0#8)
    (hF7 : b ≠ 0xF7#8) (payload rest : List Byte) :
    parse c (b :: (payload ++ rest)) = .msg 0 (1 + payload.length) (stdId b) payload ↔
      (∀ x ∈ payload, isData x = true) ∧ c.isStdId b = true ∧ payload.length = c.stdPayloadLen b := by
  constructor
  · intro h
    have hlead : isNoise c b = false := by
      by_contra hn
      have hskip := congrArg Verdict.skip (parse_noise c [b] (payload ++ rest) (by simpa using hn))
      rw [List.singleton_append, h, Verdict.skip_shift] at hskip
      simp only [Verdict.skip, List.length_singleton] at hskip
      omega
    have hstd : c.isStdId b = true := (lead_cases hlead).resolve_right (by simp [hF0, hF7, h80])
    rw [parse_std hc hstd] at h
    split_ifs at h
    obtain ⟨hlen, hdata⟩ := parseStd_msg h
    exact ⟨hdata, hstd, by omega⟩
  · rintro ⟨hdata, hstd, hk⟩
    have hlong : ¬ (payload ++ rest).length < c.stdPayloadLen b := by rw [List.length_append]; omega
    rw [parse_std hc hstd, if_neg hlong]
    exact parseStd_of_data hk hdata 0 rest

/-- A sysex frame whose message begins with the data bytes `pre` reads back as a message of its whole length exactly when
its payload is data. -/
theorem parse_sysex_frame_iff {c : Config} (hc : c.wf = true) {pre : List Byte} (hpre : ∀ x ∈ pre, isData x = true)
    (hne : 1 ≤ pre.length) (h0 : pre.head? = some 0x00#8 → 3 ≤ pre.length) {id : Word} {payload : List Byte}
    (hid : ∀ n, sysexVerdict 0 n (pre ++ payload) = .msg 0 n id payload) (rest : List Byte) :
    parse c (0xF0#8 :: pre ++ payload ++ [0xF7#8] ++ rest) =
        .msg 0 (0xF0#8 :: pre ++ payload ++ [0xF7#8]).length id payload ↔
      ∀ x ∈ payload, isData x = true := by
  have hbuf : 0xF0#8 :: pre ++ payload ++ [0xF7#8] ++ rest = 0xF0#8 :: (pre ++ payload ++ 0xF7#8 :: rest) := by simp
  have hbytes : (0xF0#8 :: pre ++ payload ++ [0xF7#8]).length = (pre ++ payload).length + 2 := by
    simp [Nat.add_assoc]
  rw [hbuf, hbytes]
  constructor
  · intro h
    obtain ⟨data, rest', hbody, hdata, hlen⟩ := parse_sysex_msg hc h
    have heq : pre ++ payload = data := (List.append_inj hbody (Nat.add_right_cancel hlen)).1
    intro x hx
    exact hdata x (heq ▸ List.mem_append_right pre hx)
  · intro hdata
    have hall : ∀ x ∈ pre ++ payload, isData x = true := fun x hx =>
      (List.mem_append.mp hx).elim (hpre x) (hdata x)
    have hhead : (pre ++ payload).head? = pre.head? := by
      cases pre with
      | nil => cases hne
      | cons t pre => rfl
    rw [parse_sysex_of_status hc hall (by decide) (by rw [List.length_append]; omega)
      (fun h => by have := h0 (hhead ▸ h); rw [List.length_append]; omega),
      if_neg (by decide), hid]

theorem stdId_ne_of_le {id : Word} (hid : 0x100 ≤ id.toNat) (b : Byte) : id ≠ b.setWidth 32 := by
  rintro rfl
  have hb := b.isLt
  rw [BitVec.toNat_setWidth] at hid
  omega

/-- R123 on the wire bytes, by the shape of the id. -/
theorem parse_frameBytes_iff {c : Config} (hc : c.wf = true) {id : Word} {payload bytes : List Byte}
    (h : frameBytes id payload = some bytes) (rest : List Byte) :
    parse c (bytes ++ rest) = .msg 0 bytes.length id payload ↔
      (∀ b ∈ payload, isData b = true) ∧
        (∀ b : Byte, id = b.setWidth 32 → 0x80 ≤ b.toNat →
          c.isStdId b = true ∧ payload.length = c.stdPayloadLen b) := by
  cases hshape : shapeOf id with
  | invalid =>
    rw [frameBytes_of_invalid hshape] at h
    cases h
  | std b =>
    obtain ⟨h80, hF0, hF7, rfl⟩ := (shapeOf_eq_std_iff id b).mp hshape
    rw [frameBytes_of_std hshape, Option.some.injEq] at h
    subst h
    rw [List.cons_append, List.length_cons, Nat.add_comm, parse_std_frame_iff hc h80 hF0 hF7]
    refine and_congr_right fun _ => ⟨fun hstd b' hb' _ => ?_, fun hstd => hstd b rfl h80⟩
    have hbb : b = b' := by
      have hn := congrArg BitVec.toNat hb'
      have hb := b.isLt
      have hb2 := b'.isLt
      simp only [stdId, BitVec.toNat_setWidth] at hn
      exact BitVec.eq_of_toNat_eq (by omega)
    rwa [← hbb]
  | sysex t =>
    obtain ⟨h1, h7F, rfl⟩ := (shapeOf_eq_sysex_iff id t).mp hshape
    rw [frameBytes_of_sysex hshape, Option.some.injEq] at h
    subst h
    have hbig : 0x100 ≤ (sysexId t).toNat := by rw [sysexId, sysexId_toNat t (by omega)]; omega
    have ht : t ≠ 0x00#8 := by rintro rfl; exact absurd h1 (by decide)
    rw [and_iff_left fun b hb => absurd hb (stdId_ne_of_le hbig b)]
    exact parse_sysex_frame_iff hc (pre := [t]) (by simp [isData_iff]; omega) le_rfl
      (fun h => absurd (Option.some.inj h) ht) (fun n => sysexVerdict_type ht 0 n payload) rest
  | ext x =>
    obtain rfl := (shapeOf_eq_ext_iff id x).mp hshape
    rw [frameBytes_of_ext hshape, Option.some.injEq] at h
    subst h
    have hx := x.isLt
    have hbig : 0x100 ≤ (0x00F00000#32 ||| x.setWidth 32).toNat := by rw [extId_toNat]; omega
    rw [and_iff_left fun b hb => absurd hb (stdId_ne_of_le hbig b)]
    rw [← extId_split]
    exact parse_sysex_frame_iff hc
      (pre := [0x00#8, BitVec.ofNat 8 (x.toNat % 128), BitVec.ofNat 8 (x.toNat / 128)])
      (by simp [isData_iff]; omega) (by simp) (fun _ => le_rfl)
      (fun n => sysexVerdict_ext 0 n _ _ payload) rest

/-! ### The obligations about PARSE -/

/-- Settles O10: FRAME's answer holds the bytes of the id's shape, and `parse_frameBytes_iff` reads them back. -/
theorem frameThenParseGivesTheMessage : Obligations.FrameThenParseGivesTheMessage := by
  intro s t id payload bytes rest hc hframe hres
  cases hbytes : frameBytes id payload with
  | none =>
    rw [exec_frame_of_none hbytes] at hframe
    cases hframe
    cases hres
  | some bytes' =>
    rw [exec_frame_of_some hbytes] at hframe
    cases hframe
    cases hres
    have hlaw := parse_frameBytes_iff hc hbytes rest
    simp only [isData_iff] at hlaw
    rw [← hlaw]
    refine State.next_finish_inj.trans ⟨fun h => ResultData.verdict.inj h.2, fun h => ?_⟩
    rw [State.finish_cfg, h]
    exact ⟨rfl, rfl⟩

/-- Settles O11: the bounds are `parse_bounds`, verdict by verdict. -/
theorem parseAnswersAVerdictWithinTheBuffer : Obligations.ParseAnswersAVerdictWithinTheBuffer := by
  intro s buf
  refine ⟨rfl, ?_⟩
  obtain ⟨hwithin, htakes⟩ := parse_bounds s.cfg buf
  cases hv : parse s.cfg buf with
  | needMore k =>
    rw [hv] at hwithin
    exact ⟨rfl, hwithin⟩
  | msg k n id p | malformed k n =>
    rw [hv] at hwithin htakes
    exact ⟨rfl, htakes.resolve_left (by simp [Verdict.status]), hwithin⟩

/-- Settles O12: noise shifts the verdict, and a buffer without leading noise skips nothing. -/
theorem parseSkipsLeadingNoise : Obligations.ParseSkipsLeadingNoise := by
  intro c noise buf hnoise
  have hshift : parse c (noise ++ buf) = (parse c buf).shift noise.length :=
    parse_noise c noise buf fun b hb => (isNoise_iff c b).mpr (hnoise b hb)
  have hskip : (parse c (noise ++ buf)).skip = noise.length + (parse c buf).skip := by rw [hshift, Verdict.skip_shift]
  refine ⟨hshift.trans ?_, ?_, ?_⟩
  · cases parse c buf <;> rfl
  · rintro rfl
    rw [hskip, parse_nil]
    rfl
  · rintro b body rfl hb
    have hlead : isNoise c b = false := Bool.eq_false_iff.mpr (mt (isNoise_iff c b).mp hb)
    rw [hskip, (parse_lead_atHead hlead body).skip_eq_zero, Nat.add_zero]

/-- Settles O13: such a buffer is short. -/
theorem parseOfAShortBufferNeedsMore : Obligations.ParseOfAShortBufferNeedsMore := by
  intro c b body hb hlen hpart
  have hlead : isNoise c b = false := Bool.eq_false_iff.mpr (mt (isNoise_iff c b).mp hb)
  exact parse_short hlead ((shortBuffer_iff c b _).mpr ⟨hlen, hpart⟩)

/-- Settles O14: the payload is whole, and its first status byte cuts it. -/
theorem parseOfAStandardMessage : Obligations.ParseOfAStandardMessage := by
  intro c b payload rest hc hb hk
  have hwhole : parse c (b :: payload ++ rest) = parseStd c 0 b (payload ++ rest) := by
    rw [List.cons_append, parse_std hc hb, if_neg]
    rw [List.length_append]
    omega
  rw [hwhole]
  refine ⟨fun hdata => parseStd_of_data hk (isData_of_lt hdata) 0 rest, ?_⟩
  rintro pre x post rfl hpre hx
  exact parseStd_of_status hk (isData_of_lt hpre) (isData_eq_false_of_le hx) 0 rest

/-- Settles O15: the first status byte decides, and where it is the end marker the data before it does. -/
theorem parseOfASysexFrame : Obligations.ParseOfASysexFrame := by
  intro c data rest hc hdata
  have hd := isData_of_lt hdata
  have hended (hlen : 3 ≤ data.length + 2 + rest.length)
      (hext : data.head? = some 0x00#8 → 4 ≤ data.length + 2 + rest.length) :
      parse c (0xF0#8 :: data ++ 0xF7#8 :: rest) = sysexVerdict 0 (data.length + 2) data :=
    parse_sysex_of_status hc hd (by decide) hlen hext
  refine ⟨?_, ?_, ?_, fun h0 hshort hlen => ?_, fun x hx hF7 hlen hext => ?_, parse_sysex_of_data hc hd, fun x => ?_⟩
  · rintro t payload rfl ht
    rw [hended (by rw [List.length_cons]; omega) (fun h => absurd (Option.some.inj h) ht), sysexVerdict_type ht]
    rfl
  · rintro lo hi payload rfl
    have hlen : 3 ≤ (0x00#8 :: lo :: hi :: payload).length := Nat.le_add_left 3 _
    rw [hended (by omega) (fun _ => by omega), sysexVerdict_ext, extId_eq (hdata lo (by simp))]
  · rintro rfl hrest
    rw [hended (by rw [List.length_nil]; omega) (fun h => nomatch h), sysexVerdict_nil]
    rfl
  · rw [hended (by omega) (fun _ => hlen), sysexVerdict_of_ext_short h0 hshort]
  · exact (parse_sysex_of_status hc hd (isData_eq_false_of_le hx) hlen hext).trans (if_pos hF7)
  · rw [parse_sysex hc]
    rfl

/-- Settles O16: a stray byte of three is consumed alone. -/
theorem parseOfAStrayByteIsMalformed : Obligations.ParseOfAStrayByteIsMalformed := by
  intro c b body hc hb hlen
  rw [parse_stray hc hb, if_neg (not_lt.mpr hlen)]

/-- Settles O17: only a verdict that waits can change. -/
theorem parseIsStableUnderMoreBytes : Obligations.ParseIsStableUnderMoreBytes := by
  intro c buf more hc
  obtain ⟨k', hmore, hskip⟩ | hsame := parse_append hc buf more
  · rw [hmore]
    refine ⟨fun _ _ _ _ h => (nomatch h), fun _ _ h => (nomatch h), fun k h => ?_⟩
    cases h
    exact hskip
  · rw [hsame]
    exact ⟨fun _ _ _ _ h => h, fun _ _ h => h, fun k h => by rw [h]; exact le_rfl⟩

/-! ### 7-bit groups (R130 to R135) -/

theorem moreGroups_of_ne_zero (fuel : Nat) {r : Nat} (hr : r ≠ 0) :
    moreGroups (fuel + 1) r = BitVec.ofNat 8 (r % 128) :: moreGroups fuel (r / 128) := by
  rw [moreGroups, if_neg hr]

@[simp] theorem moreGroups_zero (fuel : Nat) : moreGroups fuel 0 = [] := by
  cases fuel <;> rfl

theorem div_128_lt_iff (r m : Nat) : r / 128 < 2 ^ (7 * m) ↔ r < 2 ^ (7 * (m + 1)) := by
  rw [show 7 * (m + 1) = 7 * m + 7 from rfl, Nat.pow_add]
  exact Nat.div_lt_iff_lt_mul (by decide)

theorem moreGroups_getD {fuel r i : Nat} (hi : i < (moreGroups fuel r).length) :
    ((moreGroups fuel r).getD i 0).toNat = r / 2 ^ (7 * i) % 128 := by
  induction fuel generalizing r i with
  | zero => cases hi
  | succ fuel ih =>
    by_cases hr : r = 0
    · simp [hr] at hi
    · rw [moreGroups_of_ne_zero fuel hr] at hi ⊢
      cases i with
      | zero =>
        rw [List.getD_cons_zero, BitVec.toNat_ofNat]
        omega
      | succ i =>
        rw [List.getD_cons_succ, ih (by simpa using hi), Nat.div_div_eq_div_mul, Nat.mul_succ, Nat.pow_add, Nat.mul_comm]

/-- `fuel` groups hold a value below `2^(7 * fuel)`, and no more are used than it needs. -/
theorem moreGroups_length_le_iff {fuel r n : Nat} (hr : r < 2 ^ (7 * fuel)) :
    (moreGroups fuel r).length ≤ n ↔ r < 2 ^ (7 * n) := by
  by_cases h0 : r = 0
  · simp [h0]
  · induction fuel generalizing r n with
    | zero => exact absurd (Nat.lt_one_iff.mp hr) h0
    | succ fuel ih =>
      rw [moreGroups_of_ne_zero fuel h0, List.length_cons]
      cases n with
      | zero => simpa using h0
      | succ n =>
        rw [Nat.succ_le_succ_iff, ← div_128_lt_iff]
        by_cases hq : r / 128 = 0
        · simp [hq]
        · exact ih ((div_128_lt_iff r fuel).mpr hr) hq

theorem moreGroups_getLast_ne_zero {fuel r : Nat} (hr : r < 2 ^ (7 * fuel)) :
    (moreGroups fuel r).getLast? ≠ some 0x00#8 := by
  induction fuel generalizing r with
  | zero => simp [moreGroups]
  | succ fuel ih =>
    have hdiv : r / 128 < 2 ^ (7 * fuel) := (div_128_lt_iff r fuel).mpr hr
    by_cases h0 : r = 0
    · simp [h0]
    · rw [moreGroups_of_ne_zero fuel h0]
      cases hg : moreGroups fuel (r / 128) with
      | nil =>
        have hsmall : r / 128 < 2 ^ (7 * 0) := (moreGroups_length_le_iff hdiv).mp (by rw [hg]; rfl)
        intro hlast
        have hb : (BitVec.ofNat 8 (r % 128)).toNat = 0 := congrArg BitVec.toNat (Option.some.inj hlast)
        rw [BitVec.toNat_ofNat] at hb
        omega
      | cons a l =>
        rw [List.getLast?_cons_cons, ← hg]
        exact ih hdiv

/-- A value but 0 is its groups; 0 has one. -/
theorem toDataBytes_of_ne_zero {v : Word} (hv : v ≠ 0#32) : toDataBytes v = moreGroups 5 v.toNat := by
  have hn : v.toNat ≠ 0 := fun h => hv (BitVec.eq_of_toNat_eq (by simpa using h))
  exact (moreGroups_of_ne_zero 4 hn).symm

theorem toDataBytes_zero : toDataBytes 0#32 = [0x00#8] := rfl

theorem toDataBytes_getD {v : Word} {i : Nat} (hi : i < (toDataBytes v).length) :
    ((toDataBytes v).getD i 0).toNat = v.toNat / 2 ^ (7 * i) % 128 := by
  by_cases hv : v = 0#32
  · subst hv
    obtain rfl : i = 0 := by simpa [toDataBytes_zero] using hi
    rfl
  · rw [toDataBytes_of_ne_zero hv] at hi ⊢
    exact moreGroups_getD hi

theorem toDataBytes_length_le_iff {v : Word} {n : Nat} (hn : 1 ≤ n) :
    (toDataBytes v).length ≤ n ↔ v.toNat < 2 ^ (7 * n) := by
  by_cases hv : v = 0#32
  · subst hv
    simpa [toDataBytes_zero] using hn
  · rw [toDataBytes_of_ne_zero hv, moreGroups_length_le_iff (by have := v.isLt; omega)]

theorem toDataBytes_length_pos (v : Word) : 1 ≤ (toDataBytes v).length := Nat.le_add_left 1 _

theorem toDataBytes_length_le (v : Word) : (toDataBytes v).length ≤ 5 :=
  (toDataBytes_length_le_iff (by decide)).mpr (by have := v.isLt; omega)

theorem toDataBytes_getLast_ne_zero {v : Word} (hv : v ≠ 0#32) : (toDataBytes v).getLast? ≠ some 0x00#8 := by
  rw [toDataBytes_of_ne_zero hv]
  exact moreGroups_getLast_ne_zero (by have := v.isLt; omega)

theorem toDataBytes_fifth_le {v : Word} (h5 : (toDataBytes v).length = 5) : ((toDataBytes v).getD 4 0).toNat ≤ 0x0F := by
  have hv := v.isLt
  rw [toDataBytes_getD (by omega)]
  omega

theorem toDataBytes_data (v : Word) : ∀ b ∈ toDataBytes v, b.toNat < 0x80 := by
  intro b hb
  rcases List.mem_cons.mp hb with rfl | hb
  · rw [BitVec.toNat_ofNat]
    omega
  · exact moreGroups_data _ _ b hb

/-- Settles O18: the groups of the value, read by position, by number and by their last. -/
theorem toDataReturnsTheCanonicalGroups : Obligations.ToDataReturnsTheCanonicalGroups := fun _ v =>
  ⟨toDataBytes v, rfl, fun _ hi => toDataBytes_getD hi, toDataBytes_length_pos v, toDataBytes_length_le v,
    fun _ hn => (toDataBytes_length_le_iff hn).symm, toDataBytes_getLast_ne_zero, toDataBytes_fifth_le⟩

/-- Settles O19: the Horner sum is the literal one. -/
theorem toValueReturnsTheGroupSum : Obligations.ToValueReturnsTheGroupSum := by
  intro s p
  rw [← groupSum_eq_sum]
  rfl

theorem toValueWord_toDataBytes (v : Word) : toValueWord (toDataBytes v) = v := by
  rw [toValueWord, groupSum_toDataBytes, u32, BitVec.ofNat_toNat, BitVec.setWidth_eq]

theorem groupSum_lt_of_data {p : List Byte} (hd : ∀ b ∈ p, b.toNat < 0x80) : groupSum p < 2 ^ (7 * p.length) := by
  induction p with
  | nil => decide
  | cons b p ih =>
    have hb := hd b (by simp)
    have hp := ih fun x hx => hd x (List.mem_cons_of_mem b hx)
    rw [groupSum, List.length_cons, Nat.mul_succ, Nat.pow_add]
    omega

/-- The sum of a payload that TO_DATA can give fits 32 bits. -/
theorem groupSum_lt_of_fits {p : List Byte} (hd : ∀ b ∈ p, b.toNat < 0x80) (h5 : p.length ≤ 5)
    (hfifth : p.length = 5 → (p.getD 4 0).toNat ≤ 0x0F) : groupSum p < 2 ^ 32 := by
  match p, hd, h5, hfifth with
  | [a, b, c, d, e], hd, _, hfifth =>
    have he : e.toNat ≤ 0x0F := hfifth rfl
    have hlow := groupSum_lt_of_data (p := [a, b, c, d]) fun x hx => hd x (by simp at hx ⊢; tauto)
    simp only [groupSum, List.length_cons, List.length_nil] at hlow ⊢
    omega
  | [], hd, _, _ | [_], hd, _, _ | [_, _], hd, _, _ | [_, _, _], hd, _, _ | [_, _, _, _], hd, _, _ =>
    refine (groupSum_lt_of_data hd).trans_le (Nat.pow_le_pow_right (by decide) ?_)
    simp

/-- TO_DATA gives back a canonical payload that fits 32 bits. -/
theorem toDataBytes_toValueWord {p : List Byte} (hd : ∀ b ∈ p, b.toNat < 0x80) (h1 : 1 ≤ p.length)
    (hlast : p.getLast? = some 0x00#8 → p.length = 1) (h5 : p.length ≤ 5)
    (hfifth : p.length = 5 → (p.getD 4 0).toNat ≤ 0x0F) : toDataBytes (toValueWord p) = p := by
  have hfits := groupSum_lt_of_fits hd h5 hfifth
  cases p with
  | nil => simp at h1
  | cons b p =>
    have hb := hd b (by simp)
    have hv : (toValueWord (b :: p)).toNat = b.toNat + 128 * groupSum p := by
      rw [toValueWord, BitVec.toNat_ofNat, Nat.mod_eq_of_lt hfits, groupSum]
    have hplast : p.getLast? ≠ some 0x00#8 := by
      intro hp
      cases p with
      | nil => cases hp
      | cons a l =>
        have := hlast (by rwa [List.getLast?_cons_cons])
        simp at this
    have hlow : (b.toNat + 128 * groupSum p) % 128 = b.toNat := by omega
    have hhigh : (b.toNat + 128 * groupSum p) / 128 = groupSum p := by omega
    rw [toDataBytes, hv, hlow, hhigh, BitVec.ofNat_toNat, BitVec.setWidth_eq,
      moreGroups_groupSum 4 p (fun x hx => hd x (List.mem_cons_of_mem b hx)) hplast
        (Nat.le_of_succ_le_succ h5)]

/-- Settles O20: TO_DATA's payload has every condition, and each condition is used to read it back. -/
theorem valueRoundTrips : Obligations.ValueRoundTrips := by
  refine ⟨fun s t v p hx hd => ?_, fun s t v p hx hd => ?_⟩
  · cases hx
    cases hd
    exact State.next_finish_inj.mpr ⟨rfl, congrArg _ (toValueWord_toDataBytes v)⟩
  · cases hx
    cases hd
    refine State.next_finish_inj.trans ⟨fun h => ?_, fun ⟨hdata, h1, hlast, h5, hfifth⟩ => ?_⟩
    · have hp : toDataBytes (toValueWord p) = p := ResultData.payload.inj h.2
      rw [← hp]
      refine ⟨toDataBytes_data _, toDataBytes_length_pos _, fun hlast => ?_, toDataBytes_length_le _, toDataBytes_fifth_le⟩
      by_cases hv : toValueWord p = 0#32
      · rw [hv, toDataBytes_zero]
        rfl
      · exact absurd hlast (toDataBytes_getLast_ne_zero hv)
    · exact ⟨rfl, congrArg _ (toDataBytes_toValueWord hdata h1 hlast h5 hfifth)⟩

/-! ### Strings (R136 to R140) -/

theorem toNat_and_0x7F (ch : Byte) : (ch &&& 0x7F#8).toNat = ch.toNat % 128 := by
  rw [BitVec.toNat_and]
  exact Nat.and_two_pow_sub_one_eq_mod ch.toNat 7

theorem toNat_ushiftRight_7 (ch : Byte) : (ch >>> 7).toNat = ch.toNat / 128 := by
  rw [BitVec.toNat_ushiftRight, Nat.shiftRight_eq_div_pow]

theorem toNat_add_shiftLeft_7 (lo hi : Byte) : (lo + (hi <<< 7)).toNat = (lo.toNat + 128 * hi.toNat) % 256 := by
  simp only [BitVec.toNat_add, BitVec.toNat_shiftLeft, Nat.shiftLeft_eq]
  omega

theorem strToDataBytes_length (str : List Byte) : (strToDataBytes str).length = 2 * str.length := by
  induction str with
  | nil => rfl
  | cons ch str ih =>
    simp only [strToDataBytes, List.length_cons, ih]
    omega

theorem strToDataBytes_getD {str : List Byte} {j : Nat} (hj : j < str.length) :
    ((strToDataBytes str).getD (2 * j) 0).toNat = (str.getD j 0).toNat % 128 ∧
      ((strToDataBytes str).getD (2 * j + 1) 0).toNat = (str.getD j 0).toNat / 128 := by
  induction str generalizing j with
  | nil => cases hj
  | cons ch str ih =>
    cases j with
    | zero => exact ⟨toNat_and_0x7F ch, toNat_ushiftRight_7 ch⟩
    | succ j => exact ih (Nat.lt_of_succ_lt_succ hj)

theorem toStringBytes_length : ∀ p : List Byte, (toStringBytes p).length = p.length / 2
  | [] => rfl
  | [_] => by simp [toStringBytes]
  | lo :: hi :: p => by
    simp only [toStringBytes, List.length_cons, toStringBytes_length p]
    omega

theorem toStringBytes_getD : ∀ {p : List Byte} {j : Nat}, j < p.length / 2 →
    ((toStringBytes p).getD j 0).toNat = ((p.getD (2 * j) 0).toNat + 128 * (p.getD (2 * j + 1) 0).toNat) % 256
  | [], _, hj | [_], _, hj => by simp at hj
  | lo :: hi :: _, 0, _ => toNat_add_shiftLeft_7 lo hi
  | _ :: _ :: p, j + 1, hj => toStringBytes_getD (p := p) (j := j) (by simp only [List.length_cons] at hj; omega)

/-- Settles O21: each character is one pair, read by position. -/
theorem stringsTakeTwoBytesACharacter : Obligations.StringsTakeTwoBytesACharacter :=
  ⟨fun _ str => ⟨strToDataBytes str, rfl, strToDataBytes_length str, fun _ hj => strToDataBytes_getD hj⟩,
    fun _ p => ⟨toStringBytes p, rfl, toStringBytes_length p, fun _ hj => toStringBytes_getD hj⟩⟩

theorem strToDataBytes_toStringBytes : ∀ {p : List Byte}, p.length % 2 = 0 →
    (∀ j, j < p.length / 2 → (p.getD (2 * j) 0).toNat < 0x80 ∧ (p.getD (2 * j + 1) 0).toNat ≤ 1) →
    strToDataBytes (toStringBytes p) = p
  | [], _, _ => rfl
  | lo :: hi :: p, heven, hpairs => by
    obtain ⟨hlo, hhi⟩ : lo.toNat < 0x80 ∧ hi.toNat ≤ 1 := hpairs 0 (by simp)
    have hp : strToDataBytes (toStringBytes p) = p :=
      strToDataBytes_toStringBytes (by simp only [List.length_cons] at heven; omega)
        fun j hj => hpairs (j + 1) (by simp only [List.length_cons]; omega)
    have hlow : (lo + (hi <<< 7)) &&& 0x7F#8 = lo := by
      apply BitVec.eq_of_toNat_eq
      rw [toNat_and_0x7F, toNat_add_shiftLeft_7]
      omega
    have hhigh : (lo + (hi <<< 7)) >>> 7 = hi := by
      apply BitVec.eq_of_toNat_eq
      rw [toNat_ushiftRight_7, toNat_add_shiftLeft_7]
      omega
    rw [toStringBytes, strToDataBytes, hlow, hhigh, hp]

/-- A pair holds a character's bits and no others: seven low, then one high (R140). -/
theorem strToDataBytes_toStringBytes_iff (p : List Byte) :
    strToDataBytes (toStringBytes p) = p ↔
      p.length % 2 = 0 ∧ ∀ j, j < p.length / 2 → (p.getD (2 * j) 0).toNat < 0x80 ∧ (p.getD (2 * j + 1) 0).toNat ≤ 1 := by
  refine ⟨fun hp => ?_, fun ⟨heven, hpairs⟩ => strToDataBytes_toStringBytes heven hpairs⟩
  have hlen := strToDataBytes_length (toStringBytes p)
  rw [hp] at hlen
  refine ⟨by omega, fun j hj => ?_⟩
  obtain ⟨hlo, hhi⟩ := strToDataBytes_getD (str := toStringBytes p) (j := j) (by omega)
  rw [hp] at hlo hhi
  have hch := ((toStringBytes p).getD j 0).isLt
  omega

/-- Settles O22: the pairs of a string read back, and a payload read back is the pairs of its string. -/
theorem stringRoundTrips : Obligations.StringRoundTrips := by
  refine ⟨fun s t str p hx hd => ?_, fun s t str p hx hd => ?_⟩
  · cases hx
    cases hd
    exact State.next_finish_inj.mpr ⟨rfl, congrArg _ (toStringBytes_strToDataBytes str)⟩
  · cases hx
    cases hd
    rw [← strToDataBytes_toStringBytes_iff]
    exact State.next_finish_inj.trans ⟨fun h => ResultData.payload.inj h.2, fun h => ⟨rfl, congrArg _ h⟩⟩

end Sys2Proof.Machine

/-! PROOF. The receive framer (41_rx_framer.md): RX_PUSH and RX_STEP, the progress of a drain, and what a byte stream
amounts to however its pushes and drains are interleaved. -/

namespace Sys2Proof.Machine

/-! ### RX_PUSH (R160) -/

theorem exec_rxPush_of_room {s : State} (h : s.rxFull = false) (b : Byte) :
    exec (.rxPush b) s = .next ((s.append b).finish .ok (.flushed 0)) :=
  if_neg (by rw [h]; decide)

theorem exec_rxPush_of_full {s : State} (h : s.rxFull = true) (b : Byte) :
    exec (.rxPush b) s = .next ((s.flush.append b).finish (pushStatus s.rxbuf.length) (.flushed s.rxbuf.length)) :=
  if_pos h

/-- Settles O23: a buffer is full where its length is its capacity, and a capacity holds at least four bytes, so a flush
always drops some. -/
theorem rxPushStoresTheByte : Obligations.RxPushStoresTheByte := by
  intro s b
  refine ⟨fun hroom => ?_, fun hc hfull => ?_⟩
  · exact exec_rxPush_of_room (Bool.eq_false_iff.mpr (mt s.rxFull_iff.mp hroom)) b
  · have hpos : 0 < s.rxbuf.length := Nat.lt_of_lt_of_le (by decide) (Config.rxCap_ge_of_wf hc hfull)
    have hstatus : pushStatus s.rxbuf.length = .overflow := if_pos hpos
    rw [exec_rxPush_of_full (s.rxFull_iff.mpr hfull), hstatus]
    simp [State.flush, State.append, State.finish, State.consume, State.addDropped, State.emit]

/-! ### RX_STEP (R162) -/

theorem exec_rxStep (s : State) : exec .rxStep s = .next (applyVerdict s (parse s.cfg s.rxbuf)) := rfl

/-- Settles O24: each verdict's answer is written out in `applyVerdict`; only the DROPPED event depends on there being
noise. -/
theorem rxStepAppliesTheVerdict : Obligations.RxStepAppliesTheVerdict := by
  intro s
  refine ⟨fun k n id p hv => ?_, fun k hv => ?_, fun k n hv => ?_⟩ <;> rw [exec_rxStep, hv]
  · have hevents : droppedEvents k ++ [.msg id p] = if 0 < k then [.dropped (u32 k), .msg id p] else [.msg id p] := by
      unfold droppedEvents
      split <;> rfl
    rw [← hevents]
    rfl
  · rfl
  · rfl

/-- The bytes a verdict counts as lost: noise, and a malformed frame (R162). -/
def Verdict.lost : Verdict → Nat
  | .msg k _ _ _ => k
  | .needMore k => k
  | .malformed k n => k + n

/-- The message a verdict delivers, if any (R162). -/
def Verdict.messages : Verdict → List (Word × List Byte)
  | .msg _ _ id p => [(id, p)]
  | _ => []

@[simp] theorem applyVerdict_cfg (s : State) (v : Verdict) : (applyVerdict s v).cfg = s.cfg := by
  cases v <;> rfl

@[simp] theorem applyVerdict_rxbuf (s : State) (v : Verdict) :
    (applyVerdict s v).rxbuf = s.rxbuf.drop (v.skip + v.len) := by
  cases v <;> rfl

@[simp] theorem applyVerdict_droppedCount (s : State) (v : Verdict) :
    (applyVerdict s v).droppedCount = s.droppedCount + u32 v.lost := by
  cases v <;> rfl

@[simp] theorem applyVerdict_result_status (s : State) (v : Verdict) : (applyVerdict s v).result.status = v.status := by
  cases v <;> rfl

theorem applyVerdict_result_eq_needMore_iff (s : State) (v : Verdict) (n : Nat) :
    (applyVerdict s v).result = { status := .needMore, data := .dropped n } ↔ v = .needMore n := by
  cases v <;> simp [applyVerdict]

theorem applyVerdict_needMore_zero (s : State) : applyVerdict s (.needMore 0) = s.finish .needMore (.dropped 0) := by
  simp [applyVerdict, State.finish, State.emit, State.addDropped, State.consume, droppedEvents]

theorem msgEvents_append (l l' : List Event) : msgEvents (l ++ l') = msgEvents l ++ msgEvents l' :=
  List.filterMap_append

theorem msgEvents_droppedEvents (n : Nat) : msgEvents (droppedEvents n) = [] := by
  unfold droppedEvents
  split <;> rfl

@[simp] theorem msgEvents_applyVerdict (s : State) (v : Verdict) :
    msgEvents (applyVerdict s v).events = msgEvents s.events ++ v.messages := by
  cases v <;>
    simp only [applyVerdict, State.finish_events, State.emit_events, msgEvents_append, msgEvents_droppedEvents] <;> rfl

/-! ### Progress (R163) -/

/-- A verdict other than "wait, nothing to drop" takes at least one byte. -/
theorem parse_takes_of_ne_needMore_zero {c : Config} {buf : List Byte} (h : parse c buf ≠ .needMore 0) :
    0 < (parse c buf).skip + (parse c buf).len := by
  obtain ⟨-, htakes⟩ := parse_bounds c buf
  cases hv : parse c buf with
  | needMore k =>
    have : k ≠ 0 := by rintro rfl; exact h hv
    exact Nat.add_pos_left (Nat.pos_of_ne_zero this) _
  | msg k n id p | malformed k n =>
    rw [hv] at htakes
    exact Nat.add_pos_right _ (htakes.resolve_left (by simp [Verdict.status]))

/-- What such a verdict takes shortens the buffer. -/
theorem length_drop_verdict_lt {c : Config} {buf : List Byte} (h : parse c buf ≠ .needMore 0) :
    (buf.drop ((parse c buf).skip + (parse c buf).len)).length < buf.length := by
  have hpos := parse_takes_of_ne_needMore_zero h
  obtain ⟨hwithin, -⟩ := parse_bounds c buf
  rw [List.length_drop]
  omega

/-- RX_STEPs end in NEED_MORE with nothing dropped: each one before shortens the buffer. -/
theorem exists_rxSteps_drained (s : State) :
    ∃ n t, 0 < n ∧ n ≤ s.rxbuf.length + 1 ∧ runOps (rxSteps n) s = .next t ∧
      t.result = { status := .needMore, data := .dropped 0 } := by
  by_cases hv : parse s.cfg s.rxbuf = .needMore 0
  · exact ⟨1, _, Nat.one_pos, Nat.le_add_left 1 _, rfl, (applyVerdict_result_eq_needMore_iff ..).mpr hv⟩
  · have hshorter : (applyVerdict s (parse s.cfg s.rxbuf)).rxbuf.length < s.rxbuf.length := by
      rw [applyVerdict_rxbuf]
      exact length_drop_verdict_lt hv
    obtain ⟨n, t, -, hle, hrun, hres⟩ := exists_rxSteps_drained (applyVerdict s (parse s.cfg s.rxbuf))
    exact ⟨n + 1, t, n.succ_pos, by omega, hrun, hres⟩
termination_by s.rxbuf.length
decreasing_by exact hshorter

/-- Settles O25: the result tells the verdict, and `parse_bounds` what it takes. -/
theorem rxStepsMakeProgress : Obligations.RxStepsMakeProgress := by
  refine ⟨fun s t hx => ?_, exists_rxSteps_drained⟩
  cases hx
  rw [applyVerdict_result_status, applyVerdict_result_eq_needMore_iff]
  refine ⟨fun hst => ?_, fun n hres => ?_, fun hv => ?_⟩
  · rw [applyVerdict_rxbuf]
    refine length_drop_verdict_lt fun hv => ?_
    rw [hv] at hst
    simp [Verdict.status] at hst
  · have hv := (applyVerdict_result_eq_needMore_iff ..).mp hres
    obtain ⟨hwithin, -⟩ := parse_bounds s.cfg s.rxbuf
    rw [hv] at hwithin
    rw [hv, applyVerdict_rxbuf, List.length_drop]
    exact Nat.sub_add_cancel hwithin
  · rw [hv, applyVerdict_needMore_zero]
    rfl

/-! ### What a byte stream amounts to (R165) -/

/-- Messages delivered, bytes lost, and bytes left waiting. -/
structure Drained where
  messages : List (Word × List Byte)
  lost : Word
  left : List Byte

/-- What came before: messages delivered and bytes lost already. -/
def Drained.after (messages : List (Word × List Byte)) (lost : Word) (d : Drained) : Drained :=
  { messages := messages ++ d.messages, lost := lost + d.lost, left := d.left }

@[simp] theorem Drained.after_after (m m' : List (Word × List Byte)) (n n' : Word) (d : Drained) :
    (d.after m' n').after m n = d.after (m ++ m') (n + n') := by
  simp [Drained.after, BitVec.add_assoc]

theorem Drained.after_nil_zero (d : Drained) : d.after [] 0 = d := by
  simp [Drained.after]

/-- What RX_STEPs make of a buffer (R162, R163): apply verdicts until one waits with nothing to drop. -/
def drain (c : Config) (buf : List Byte) : Drained :=
  if _h : parse c buf = .needMore 0 then { messages := [], lost := 0, left := buf }
  else (drain c (buf.drop ((parse c buf).skip + (parse c buf).len))).after (parse c buf).messages (u32 (parse c buf).lost)
termination_by buf.length
decreasing_by exact length_drop_verdict_lt _h

theorem drain_of_stuck {c : Config} {buf : List Byte} (h : parse c buf = .needMore 0) :
    drain c buf = { messages := [], lost := 0, left := buf } := by
  rw [drain, dif_pos h]

/-- A verdict may be applied before the rest is drained. -/
theorem drain_verdict (c : Config) (buf : List Byte) :
    drain c buf = (drain c (buf.drop ((parse c buf).skip + (parse c buf).len))).after
      (parse c buf).messages (u32 (parse c buf).lost) := by
  by_cases h : parse c buf = .needMore 0
  · rw [h]
    exact (Drained.after_nil_zero _).symm
  · rw [drain, dif_neg h]

@[simp] theorem Verdict.messages_shift (n : Nat) (v : Verdict) : (v.shift n).messages = v.messages := by
  cases v <;> rfl

@[simp] theorem Verdict.lost_shift (n : Nat) (v : Verdict) : (v.shift n).lost = n + v.lost := by
  cases v
  case malformed k l => exact Nat.add_assoc n k l
  all_goals rfl

theorem u32_add (m n : Nat) : u32 (m + n) = u32 m + u32 n := BitVec.ofNat_add ..

/-- Leading noise may be dropped on its own: it only adds to the bytes lost (R125). -/
theorem drain_noise (c : Config) {noise : List Byte} (h : ∀ b ∈ noise, isNoise c b = true) (buf : List Byte) :
    drain c (noise ++ buf) = (drain c buf).after [] (u32 noise.length) := by
  rw [drain_verdict c (noise ++ buf), drain_verdict c buf, parse_noise c noise buf h, Drained.after_after]
  simp [u32_add, ← List.drop_drop, Nat.add_assoc]

/-- The bytes a waiting verdict drops are noise. -/
theorem noise_of_parse_needMore {c : Config} {buf : List Byte} {k : Nat} (h : parse c buf = .needMore k) :
    ∀ b ∈ buf.take k, isNoise c b = true := by
  obtain ⟨noise, tail, rfl, hnoise, rfl | ⟨b, r, rfl, hb⟩⟩ := span_noise c buf
  · intro x hx
    exact hnoise x (by simpa using List.mem_of_mem_take hx)
  · have hk : (parse c (noise ++ b :: r)).skip = noise.length := by
      rw [parse_noise c noise _ hnoise, Verdict.skip_shift, (parse_lead_atHead hb r).skip_eq_zero, Nat.add_zero]
    rw [h] at hk
    obtain rfl : k = noise.length := hk
    rwa [List.take_left]

/-- The verdict on the bytes held may be applied before more bytes arrive (R141): a message or malformed frame stays
one, and a waiting verdict drops noise only. -/
theorem drain_append {c : Config} (hc : c.wf = true) (buf more : List Byte) :
    drain c (buf ++ more) = (drain c (buf.drop ((parse c buf).skip + (parse c buf).len) ++ more)).after
      (parse c buf).messages (u32 (parse c buf).lost) := by
  obtain ⟨hwithin, -⟩ := parse_bounds c buf
  obtain ⟨k, hmore, -⟩ | hsame := parse_append hc buf more
  · rw [hmore] at hwithin ⊢
    have hk : k ≤ buf.length := hwithin
    have hsplit := drain_noise c (noise_of_parse_needMore hmore) (buf.drop k ++ more)
    rwa [← List.append_assoc, List.take_append_drop, List.length_take_of_le hk] at hsplit
  · rw [drain_verdict, hsame, List.drop_append_of_le_length hwithin]

/-! ### Runs of pushes and RX_STEPs -/

theorem runOps_cons_next {i : Instr} {l : List Instr} {s t : State} :
    runOps (i :: l) s = .next t ↔ ∃ u, exec i s = .next u ∧ runOps l u = .next t := by
  rw [runOps]
  cases exec i s <;> simp

theorem runOps_append_next {l l' : List Instr} {s t : State} :
    runOps (l ++ l') s = .next t ↔ ∃ u, runOps l s = .next u ∧ runOps l' u = .next t := by
  induction l generalizing s with
  | nil => simp [runOps]
  | cons i l ih =>
    simp only [List.cons_append, runOps_cons_next, ih]
    constructor
    · rintro ⟨v, hx, u, hl, hl'⟩
      exact ⟨u, ⟨v, hx, hl⟩, hl'⟩
    · rintro ⟨u, ⟨v, hx, hl⟩, hl'⟩
      exact ⟨v, hx, u, hl, hl'⟩

theorem exec_cfg {i : Instr} {s t : State} (hx : exec i s = .next t) : t.cfg = s.cfg :=
  (eachElementHasItsWriters i s t hx).1

theorem runOps_cfg {ops : List Instr} {s t : State} (hrun : runOps ops s = .next t) : t.cfg = s.cfg := by
  induction ops generalizing s with
  | nil =>
    cases hrun
    rfl
  | cons i ops ih =>
    obtain ⟨u, hx, hrest⟩ := runOps_cons_next.mp hrun
    exact (ih hrest).trans (exec_cfg hx)

theorem NoOverflow.head {b : Byte} {l : List Instr} {s : State} (h : NoOverflow (.rxPush b :: l) s) :
    s.rxFull = false :=
  h [] b l s rfl rfl

theorem NoOverflow.tail {i : Instr} {l : List Instr} {s t : State} (h : NoOverflow (i :: l) s)
    (hx : exec i s = .next t) : NoOverflow l t := fun pre b post u hl hrun =>
  h (i :: pre) b post u (congrArg (i :: ·) hl) (runOps_cons_next.mpr ⟨t, hx, hrun⟩)

theorem rxSteps_succ (n : Nat) : rxSteps (n + 1) = rxSteps n ++ [.rxStep] := List.replicate_succ'

theorem rxSteps_all_isRxOp (n : Nat) : (rxSteps n).all isRxOp = true := by
  simp [rxSteps, isRxOp]

theorem pushedBytes_rxSteps (n : Nat) : pushedBytes (rxSteps n) = [] := by
  simp [pushedBytes, rxSteps]

theorem noOverflow_rxSteps (n : Nat) (s : State) : NoOverflow (rxSteps n) s := fun pre b post _ hl _ => by
  have hmem : Instr.rxPush b ∈ rxSteps n := hl ▸ List.mem_append_right pre List.mem_cons_self
  cases List.eq_of_mem_replicate hmem

/-! ### Split-independence (R165) -/

/-- Everything the block will have delivered, lost and left once `coming` has arrived and the buffer is drained. -/
def State.streamOutcome (coming : List Byte) (s : State) : Drained :=
  (drain s.cfg (s.rxbuf ++ coming)).after (msgEvents s.events) s.droppedCount

/-- A push that finds room moves a byte from the coming ones to the held ones. -/
theorem streamOutcome_rxPush {s t : State} {b : Byte} (hroom : s.rxFull = false) (hx : exec (.rxPush b) s = .next t)
    (coming : List Byte) : t.streamOutcome coming = s.streamOutcome (b :: coming) := by
  rw [exec_rxPush_of_room hroom] at hx
  cases hx
  simp [State.streamOutcome]

theorem streamOutcome_rxStep {s t : State} (hc : s.cfg.wf = true) (hx : exec .rxStep s = .next t) (coming : List Byte) :
    t.streamOutcome coming = s.streamOutcome coming := by
  cases hx
  unfold State.streamOutcome
  rw [drain_append hc s.rxbuf coming, Drained.after_after, applyVerdict_cfg, applyVerdict_rxbuf,
    applyVerdict_droppedCount, msgEvents_applyVerdict]

/-- Where nothing more comes and nothing more can be taken, the outcome is what the state shows. -/
theorem streamOutcome_of_stuck {s : State} (h : parse s.cfg s.rxbuf = .needMore 0) :
    s.streamOutcome [] = { messages := msgEvents s.events, lost := s.droppedCount, left := s.rxbuf } := by
  simp [State.streamOutcome, drain_of_stuck h, Drained.after]

/-- Pushes and RX_STEPs only bring the outcome about. -/
theorem streamOutcome_runOps {ops : List Instr} {s t : State} (hc : s.cfg.wf = true) (hrx : ops.all isRxOp = true)
    (hroom : NoOverflow ops s) (hrun : runOps ops s = .next t) :
    t.streamOutcome [] = s.streamOutcome (pushedBytes ops) := by
  induction ops generalizing s with
  | nil =>
    cases hrun
    rfl
  | cons i ops ih =>
    obtain ⟨u, hx, hrest⟩ := runOps_cons_next.mp hrun
    obtain ⟨hi, hrx⟩ := Bool.and_eq_true_iff.mp hrx
    have hu : t.streamOutcome [] = u.streamOutcome (pushedBytes ops) :=
      ih (exec_cfg hx ▸ hc) hrx (hroom.tail hx) hrest
    cases i with
    | rxPush b => exact hu.trans (streamOutcome_rxPush hroom.head hx _)
    | rxStep => exact hu.trans (streamOutcome_rxStep hc hx _)
    | _ => cases hi

/-- A drained run shows the outcome of the bytes it pushed, however it interleaved its RX_STEPs. -/
theorem streamOutcome_of_drained {ops : List Instr} {n : Nat} {s t : State} (hc : s.cfg.wf = true)
    (hrx : ops.all isRxOp = true) (hroom : NoOverflow ops s) (hrun : runOps (ops ++ rxSteps n) s = .next t)
    (hres : t.result = { status := .needMore, data := .dropped 0 }) (hn : 0 < n) :
    s.streamOutcome (pushedBytes ops) =
      { messages := msgEvents t.events, lost := t.droppedCount, left := t.rxbuf } := by
  obtain ⟨m, rfl⟩ := Nat.exists_eq_add_one.mpr hn
  obtain ⟨u, hops, hsteps⟩ := runOps_append_next.mp hrun
  rw [rxSteps_succ, runOps_append_next] at hsteps
  obtain ⟨w, hbefore, hlast⟩ := hsteps
  cases hlast
  have hstuck : parse w.cfg w.rxbuf = .needMore 0 := (applyVerdict_result_eq_needMore_iff ..).mp hres
  have hshown : w.streamOutcome [] = u.streamOutcome [] := by
    rw [streamOutcome_runOps (runOps_cfg hops ▸ hc) (rxSteps_all_isRxOp m) (noOverflow_rxSteps m u) hbefore,
      pushedBytes_rxSteps]
  rw [← streamOutcome_runOps hc hrx hroom hops, ← hshown, streamOutcome_of_stuck hstuck, hstuck,
    applyVerdict_needMore_zero]
  rfl

/-- Settles O26: both runs show the outcome of the same bytes. -/
theorem messagesDoNotDependOnTheSplit : Obligations.MessagesDoNotDependOnTheSplit := by
  intro s t₁ t₂ ops₁ ops₂ n₁ n₂ hc hrx₁ hrx₂ hpushed hroom₁ hroom₂ hrun₁ hres₁ hn₁ hrun₂ hres₂ hn₂
  have hout₁ := streamOutcome_of_drained hc hrx₁ hroom₁ hrun₁ hres₁ hn₁
  have hout₂ := streamOutcome_of_drained hc hrx₂ hroom₂ hrun₂ hres₂ hn₂
  rw [hpushed, hout₂] at hout₁
  obtain ⟨hmsgs, hlost, hleft⟩ := Drained.mk.inj hout₁
  exact ⟨hmsgs.symm, hlost.symm, hleft.symm⟩

end Sys2Proof.Machine
